-- ==== Sys2Proof/Word.lean ====
section
/-! DEFINITION. The widths of the spec's value types (R14 of spec/00_scope.md). Bit 0 is the least
significant bit of every word (R12). -/

namespace Sys2Proof

/-- `u8`, one byte of the frame or one 8-bit operand. -/
abbrev Byte := BitVec 8

/-- `u4`, a nibble. -/
abbrev Nibble := BitVec 4

/-- The width of `RX_STATUS` and of what STATUS_READ answers. -/
abbrev Word16 := BitVec 16

end Sys2Proof
end

