-- ==== Sys2Proof/Config.lean ====
section
/-! DEFINITION. What is fixed for the life of a machine and left open by the spec: the receive window `WIN`
(R9 of spec/00_scope.md, R40 of spec/10_state.md, R190 of spec/43_line_codec.md). The spec's fixed literals
stand in Sys2Proof/Machine/Constants.lean. -/

namespace Sys2Proof

/-- The nominal durations of R94, one per DISTINCT duration, since `WIN_LO` and `WIN_HI` are functions of the
duration alone (R9): `short` is that of BIT_MARK, ZERO_SPACE and FTR_MARK, `one` of ONE_SPACE, `headerSpace` of
HDR_SPACE, `headerMark` of HDR_MARK and CLOSE_MARK, `gap` of FTR_SPACE. -/
inductive Nominal where
  | short
  | one
  | headerSpace
  | headerMark
  | gap
deriving DecidableEq, Repr

/-- One window: the measured durations from `lo` to `hi`, both inclusive (R9). -/
structure Bounds where
  lo : Nat
  hi : Nat
deriving DecidableEq, Repr

/-- The parameter `WIN = (WIN_LO, WIN_HI)` at the five nominal durations at which the rules apply it. -/
structure Window where
  short       : Bounds
  one         : Bounds
  headerSpace : Bounds
  headerMark  : Bounds
  gap         : Bounds
deriving DecidableEq, Repr

/-- `(WIN_LO(n), WIN_HI(n))`. -/
def Window.bounds (w : Window) : Nominal → Bounds
  | .short => w.short
  | .one => w.one
  | .headerSpace => w.headerSpace
  | .headerMark => w.headerMark
  | .gap => w.gap

end Sys2Proof
end

