-- ==== Sys2Proof/Syntax.lean ====
section
/-! DEFINITION. The commands of the block (R98 to R100 of spec/30_encoding.md), the types of their operands and
results (R14, R99), and the form in which a command stands on the command port before it is decoded. -/

namespace Sys2Proof

/-- The kind of a line item (R14): carrier on or carrier off. -/
inductive Kind where
  | mark
  | space
deriving DecidableEq, Repr

/-- One mark or space with its duration in microseconds, unbounded (R11, R14). -/
structure Item where
  kind : Kind
  dur  : Nat
deriving DecidableEq, Repr

/-- `Items`: a finite list of items (R14). -/
abbrev Items := List Item

/-- The operand of ENCODE (R99). -/
structure LogicalState where
  mode        : Byte
  fan         : Byte
  temp        : Int
  hour        : Int
  minute      : Int
  onH         : Int
  onHalf      : Bool
  onAct       : Bool
  offH        : Int
  offHalf     : Bool
  offAct      : Bool
  swing       : Bool
  sleep       : Bool
  powerToggle : Bool
deriving DecidableEq, Repr

/-- The names GET_MODE answers (R89, R124). -/
inductive ModeName where
  | dry
  | cool
  | fan
  | unrecognized
deriving DecidableEq, Repr

/-- The names GET_FAN answers (R90, R126). -/
inductive FanName where
  | auto
  | turbo
  | speed3
  | speed2
  | speed1
  | quiet
  | unrecognized
deriving DecidableEq, Repr

/-- The result of DECODE (R99). -/
structure DecodedState where
  mode        : ModeName
  modeRaw     : Nibble
  fan         : FanName
  fanRaw      : Nibble
  temp        : Nat
  tempRaw     : Nat
  hour        : Nat
  minute      : Nat
  onH         : Nat
  onHalf      : Bool
  onAct       : Bool
  offH        : Nat
  offHalf     : Bool
  offAct      : Bool
  swing       : Bool
  sleep       : Bool
  powerToggle : Bool
deriving DecidableEq, Repr

/-- The commands, one constructor per row of spec/opcode_table.json, in the order of R100. Their operands are the
typed operands of R98, so an ill-typed operand cannot be written here: it is refused where a command is decoded. -/
inductive Instr where
  | frameInit
  | frameLoad (b0 b1 b2 b3 b4 b5 b6 b7 : Byte)
  | frameRead
  | setMode (code : Byte)
  | getMode
  | setFan (code : Byte)
  | getFan
  | setTemp (a : Int)
  | getTemp
  | setTime (h m : Int)
  | getTime
  | setOnTimer (h : Int) (hf act : Bool)
  | getOnTimer
  | setOffTimer (h : Int) (hf act : Bool)
  | getOffTimer
  | setSwing (v : Bool)
  | getSwing
  | setSleep (v : Bool)
  | getSleep
  | setPowerToggle (v : Bool)
  | getPowerToggle
  | checksum
  | finalize
  | isValid
  | encode (ls : LogicalState)
  | decode
  | modulate
  | demodulate (e : Items)
  | receive (e : Items)
  | statusRead
deriving DecidableEq, Repr

/-- The pseudo-instructions (R104). -/
inductive Pseudo where
  | send (ls : LogicalState)
  | setClock (h m : Int)
deriving DecidableEq, Repr

/-- What stands on an operand port before its type is checked: a number (for `u1`, `u8` and `Int`), a record as
the list of its numbers in the order of R99 (for `LogicalState`), or a list of items. -/
inductive Operand where
  | num (v : Int)
  | record (fields : List Int)
  | items (e : Items)
deriving DecidableEq, Repr

/-- A command as the host issues it: the 8-bit selector `OPC` and the operands after it (R98). DESIGN CHOICE,
log 4: the spec gives operands types and no byte layout (R98, R102), so none is invented here. -/
structure RawCommand where
  opc      : Byte
  operands : List Operand
deriving DecidableEq, Repr

/-- Why the decoder refuses a command (R101). -/
inductive DecodeError where
  /-- The selector is not in the map of R100. -/
  | unassignedSelector
  /-- The operands are not as many, or not of the sorts, as the selector's format has. -/
  | wrongOperands
  /-- A `u1` operand is neither 0 nor 1. -/
  | u1OutOfRange
  /-- A `u8` operand is outside 0..255. -/
  | u8OutOfRange
deriving DecidableEq, Repr

end Sys2Proof
end

