-- ==== Sys2Proof/WellFormed.lean ====
section
/-! DEFINITION. When a command on the command port is well formed: its selector is assigned (R100) and its operands
have the number, the sorts and the ranges of the selector's format (R98, R101). Written as a check of its own,
apart from the decoder. -/

namespace Sys2Proof

/-- The formats of R98. -/
inductive Format where
  | n
  | c8
  | b
  | i1
  | i2
  | tm
  | f8
  | st
  | ev
deriving DecidableEq, Repr

/-- The selector map of R100: the format of an assigned selector, none for a reserved one (R101). -/
def formatOf (opc : Byte) : Option Format :=
  match opc.toNat with
  | 0x01 => some .n
  | 0x02 => some .f8
  | 0x03 => some .n
  | 0x10 => some .c8
  | 0x11 => some .n
  | 0x12 => some .c8
  | 0x13 => some .n
  | 0x14 => some .i1
  | 0x15 => some .n
  | 0x16 => some .i2
  | 0x17 => some .n
  | 0x18 => some .tm
  | 0x19 => some .n
  | 0x1A => some .tm
  | 0x1B => some .n
  | 0x1C => some .b
  | 0x1D => some .n
  | 0x1E => some .b
  | 0x1F => some .n
  | 0x20 => some .b
  | 0x21 => some .n
  | 0x30 => some .n
  | 0x31 => some .n
  | 0x32 => some .n
  | 0x40 => some .st
  | 0x41 => some .n
  | 0x50 => some .n
  | 0x51 => some .ev
  | 0x52 => some .ev
  | 0x53 => some .n
  | _ => none

/-- The sorts of operand of R98, with their ranges (R101). -/
inductive OperandSort where
  | u1
  | u8
  | int
deriving DecidableEq, Repr

/-- A number in the range of its sort: an `Int` operand has no bounds (R10). -/
def OperandSort.admits : OperandSort → Int → Bool
  | .u1, v => v == 0 || v == 1
  | .u8, v => decide (0 ≤ v) && decide (v < 256)
  | .int, _ => true

/-- The sorts of the fields of `LogicalState`, in the order of R99. -/
def recordSorts : List OperandSort :=
  [.u8, .u8, .int, .int, .int, .int, .u1, .u1, .int, .u1, .u1, .u1, .u1, .u1]

/-- As many numbers as sorts, each in the range of its sort. -/
def admitsAll : List OperandSort → List Int → Bool
  | [], [] => true
  | s :: ss, v :: vs => s.admits v && admitsAll ss vs
  | _, _ => false

/-- What a format asks of its operands: numbers of given sorts, one record, or one list of items. -/
inductive Shape where
  | numbers (sorts : List OperandSort)
  | oneRecord
  | oneItems
deriving DecidableEq, Repr

/-- The table of formats (R98). -/
def Format.shape : Format → Shape
  | .n => .numbers []
  | .c8 => .numbers [.u8]
  | .b => .numbers [.u1]
  | .i1 => .numbers [.int]
  | .i2 => .numbers [.int, .int]
  | .tm => .numbers [.int, .u1, .u1]
  | .f8 => .numbers [.u8, .u8, .u8, .u8, .u8, .u8, .u8, .u8]
  | .st => .oneRecord
  | .ev => .oneItems

/-- The numbers of a list of operands that are all numbers. -/
def numbersOf : List Operand → Option (List Int)
  | [] => some []
  | .num v :: rest => (numbersOf rest).map (v :: ·)
  | _ :: _ => none

/-- Whether operands fit a shape. -/
def Shape.fits : Shape → List Operand → Bool
  | .numbers sorts, ops =>
    match numbersOf ops with
    | some vs => admitsAll sorts vs
    | none => false
  | .oneRecord, [.record vs] => admitsAll recordSorts vs
  | .oneItems, [.items _] => true
  | _, _ => false

/-- A command that has a step (R100, R101, R235). -/
def RawCommand.wellFormed (c : RawCommand) : Bool :=
  match formatOf c.opc with
  | some f => f.shape.fits c.operands
  | none => false

end Sys2Proof
end

