-- ==== Sys2Proof/Decode.lean ====
section
/-! DEFINITION. From a command on the command port to a command of the block, total, refusing by name (R98 to R101),
and back. The encoder follows the decoder, then the pseudo-instructions (R104) and the host's table words. -/

namespace Sys2Proof

/-- A `u8` operand: 0..255 (R101). -/
def asU8 : Operand → Except DecodeError Byte
  | .num v => if 0 ≤ v ∧ v < 256 then .ok (BitVec.ofNat 8 v.toNat) else .error .u8OutOfRange
  | _ => .error .wrongOperands

/-- A `u1` operand: 0 or 1 (R101). -/
def asU1 : Operand → Except DecodeError Bool
  | .num v => if v = 0 then .ok false else if v = 1 then .ok true else .error .u1OutOfRange
  | _ => .error .wrongOperands

/-- An `Int` operand: any integer (R10). -/
def asInt : Operand → Except DecodeError Int
  | .num v => .ok v
  | _ => .error .wrongOperands

/-- A `LogicalState` record (R99), its fields in the order of that rule. -/
def recordOf : List Int → Except DecodeError LogicalState
  | [mode, fan, temp, hour, minute, onH, onHalf, onAct, offH, offHalf, offAct, swing, sleep, powerToggle] => do
    let mode ← asU8 (.num mode)
    let fan ← asU8 (.num fan)
    let onHalf ← asU1 (.num onHalf)
    let onAct ← asU1 (.num onAct)
    let offHalf ← asU1 (.num offHalf)
    let offAct ← asU1 (.num offAct)
    let swing ← asU1 (.num swing)
    let sleep ← asU1 (.num sleep)
    let powerToggle ← asU1 (.num powerToggle)
    return { mode, fan, temp, hour, minute, onH, onHalf, onAct, offH, offHalf, offAct, swing, sleep, powerToggle }
  | _ => .error .wrongOperands

/-- Format N: no operand (R98). -/
def formatN (i : Instr) : List Operand → Except DecodeError Instr
  | [] => .ok i
  | _ => .error .wrongOperands

/-- Format C8: one `u8` (R98). -/
def formatC8 (mk : Byte → Instr) : List Operand → Except DecodeError Instr
  | [code] => do return mk (← asU8 code)
  | _ => .error .wrongOperands

/-- Format B: one `u1` (R98). -/
def formatB (mk : Bool → Instr) : List Operand → Except DecodeError Instr
  | [v] => do return mk (← asU1 v)
  | _ => .error .wrongOperands

/-- Format I1: one `Int` (R98). -/
def formatI1 (mk : Int → Instr) : List Operand → Except DecodeError Instr
  | [a] => do return mk (← asInt a)
  | _ => .error .wrongOperands

/-- Format I2: two `Int` (R98). -/
def formatI2 (mk : Int → Int → Instr) : List Operand → Except DecodeError Instr
  | [a, b] => do return mk (← asInt a) (← asInt b)
  | _ => .error .wrongOperands

/-- Format TM: an `Int` and two `u1` (R98). -/
def formatTM (mk : Int → Bool → Bool → Instr) : List Operand → Except DecodeError Instr
  | [h, hf, act] => do return mk (← asInt h) (← asU1 hf) (← asU1 act)
  | _ => .error .wrongOperands

/-- Format F8: eight `u8` (R98). -/
def formatF8 (mk : Byte → Byte → Byte → Byte → Byte → Byte → Byte → Byte → Instr) :
    List Operand → Except DecodeError Instr
  | [b0, b1, b2, b3, b4, b5, b6, b7] => do
    return mk (← asU8 b0) (← asU8 b1) (← asU8 b2) (← asU8 b3) (← asU8 b4) (← asU8 b5) (← asU8 b6) (← asU8 b7)
  | _ => .error .wrongOperands

/-- Format ST: one `LogicalState` (R98). -/
def formatST (mk : LogicalState → Instr) : List Operand → Except DecodeError Instr
  | [.record fields] => do return mk (← recordOf fields)
  | _ => .error .wrongOperands

/-- Format EV: one list of items (R98, R102). -/
def formatEV (mk : Items → Instr) : List Operand → Except DecodeError Instr
  | [.items e] => .ok (mk e)
  | _ => .error .wrongOperands

/-- The decoder: the selector map of R100; every other selector spells no command (R101). -/
def decode (c : RawCommand) : Except DecodeError Instr :=
  match c.opc.toNat with
  | 0x01 => formatN .frameInit c.operands
  | 0x02 => formatF8 .frameLoad c.operands
  | 0x03 => formatN .frameRead c.operands
  | 0x10 => formatC8 .setMode c.operands
  | 0x11 => formatN .getMode c.operands
  | 0x12 => formatC8 .setFan c.operands
  | 0x13 => formatN .getFan c.operands
  | 0x14 => formatI1 .setTemp c.operands
  | 0x15 => formatN .getTemp c.operands
  | 0x16 => formatI2 .setTime c.operands
  | 0x17 => formatN .getTime c.operands
  | 0x18 => formatTM .setOnTimer c.operands
  | 0x19 => formatN .getOnTimer c.operands
  | 0x1A => formatTM .setOffTimer c.operands
  | 0x1B => formatN .getOffTimer c.operands
  | 0x1C => formatB .setSwing c.operands
  | 0x1D => formatN .getSwing c.operands
  | 0x1E => formatB .setSleep c.operands
  | 0x1F => formatN .getSleep c.operands
  | 0x20 => formatB .setPowerToggle c.operands
  | 0x21 => formatN .getPowerToggle c.operands
  | 0x30 => formatN .checksum c.operands
  | 0x31 => formatN .finalize c.operands
  | 0x32 => formatN .isValid c.operands
  | 0x40 => formatST .encode c.operands
  | 0x41 => formatN .decode c.operands
  | 0x50 => formatN .modulate c.operands
  | 0x51 => formatEV .demodulate c.operands
  | 0x52 => formatEV .receive c.operands
  | 0x53 => formatN .statusRead c.operands
  | _ => .error .unassignedSelector

/-- A byte as the number on its operand port. -/
def ofU8 (b : Byte) : Int := b.toNat

/-- A bit as the number on its operand port. -/
def ofU1 (v : Bool) : Int := if v then 1 else 0

/-- The numbers of a `LogicalState`, in the order of R99. -/
def recordFields (ls : LogicalState) : List Int :=
  [ofU8 ls.mode, ofU8 ls.fan, ls.temp, ls.hour, ls.minute, ls.onH, ofU1 ls.onHalf, ofU1 ls.onAct,
   ls.offH, ofU1 ls.offHalf, ofU1 ls.offAct, ofU1 ls.swing, ofU1 ls.sleep, ofU1 ls.powerToggle]

/-- The encoder, from the selector map (R100) and the formats (R98). -/
def encode : Instr → RawCommand
  | .frameInit => ⟨0x01, []⟩
  | .frameLoad b0 b1 b2 b3 b4 b5 b6 b7 =>
    ⟨0x02, [.num (ofU8 b0), .num (ofU8 b1), .num (ofU8 b2), .num (ofU8 b3),
            .num (ofU8 b4), .num (ofU8 b5), .num (ofU8 b6), .num (ofU8 b7)]⟩
  | .frameRead => ⟨0x03, []⟩
  | .setMode code => ⟨0x10, [.num (ofU8 code)]⟩
  | .getMode => ⟨0x11, []⟩
  | .setFan code => ⟨0x12, [.num (ofU8 code)]⟩
  | .getFan => ⟨0x13, []⟩
  | .setTemp a => ⟨0x14, [.num a]⟩
  | .getTemp => ⟨0x15, []⟩
  | .setTime h m => ⟨0x16, [.num h, .num m]⟩
  | .getTime => ⟨0x17, []⟩
  | .setOnTimer h hf act => ⟨0x18, [.num h, .num (ofU1 hf), .num (ofU1 act)]⟩
  | .getOnTimer => ⟨0x19, []⟩
  | .setOffTimer h hf act => ⟨0x1A, [.num h, .num (ofU1 hf), .num (ofU1 act)]⟩
  | .getOffTimer => ⟨0x1B, []⟩
  | .setSwing v => ⟨0x1C, [.num (ofU1 v)]⟩
  | .getSwing => ⟨0x1D, []⟩
  | .setSleep v => ⟨0x1E, [.num (ofU1 v)]⟩
  | .getSleep => ⟨0x1F, []⟩
  | .setPowerToggle v => ⟨0x20, [.num (ofU1 v)]⟩
  | .getPowerToggle => ⟨0x21, []⟩
  | .checksum => ⟨0x30, []⟩
  | .finalize => ⟨0x31, []⟩
  | .isValid => ⟨0x32, []⟩
  | .encode ls => ⟨0x40, [.record (recordFields ls)]⟩
  | .decode => ⟨0x41, []⟩
  | .modulate => ⟨0x50, []⟩
  | .demodulate e => ⟨0x51, [.items e]⟩
  | .receive e => ⟨0x52, [.items e]⟩
  | .statusRead => ⟨0x53, []⟩

/-- What a pseudo-instruction stands for (R104). -/
def Pseudo.expand : Pseudo → List Instr
  | .send ls => [.encode ls, .modulate]
  | .setClock h m => [.setTime h m]

/-- The operands of a selector's format with every number 0 and every list of items empty. -/
def zeroOperands (opc : Byte) : List Operand :=
  match formatOf opc with
  | none => []
  | some f =>
    match f.shape with
    | .numbers sorts => sorts.map fun _ => .num 0
    | .oneRecord => [.record (recordSorts.map fun _ => 0)]
    | .oneItems => [.items []]

/-- The command whose bits, as spec/opcode_table.json numbers them, are `w`: bits 7:0 are the selector, and the
table gives no operand any bits, so every operand is 0 (log 5). A `w` of more than 8 bits is no word of the
table; it becomes a command with the reserved selector 0x00, which the decoder refuses. -/
def tableCommand (w : Nat) : RawCommand :=
  if w < 256 then ⟨BitVec.ofNat 8 w, zeroOperands (BitVec.ofNat 8 w)⟩ else ⟨0x00, []⟩

/-- What the decoder reads from a word of the opcode table (the host's question; every row has 8 bits). -/
def decodeTableWord (_nbits w : Nat) : Option Instr :=
  match decode (tableCommand w) with
  | .ok i => some i
  | .error _ => none

end Sys2Proof
end

