-- ==== Sys2Proof/Machine/Constants.lean ====
section
/-! DEFINITION. The spec's literals, in one place (item 18 of spec/93_implementation_defined.md asks for that: they
come from one unaudited document; log 9). -/

namespace Sys2Proof.Machine

/-- Byte 0 of every frame the encoder builds (R81). -/
abbrev headerByte : Byte := 0x16

/-- Operation mode codes (R89). -/
abbrev modeDry : Nibble := 0x1
abbrev modeCool : Nibble := 0x2
abbrev modeFan : Nibble := 0x4

/-- Fan mode codes (R90): the numbering of the speeds is inverted in the source, and kept so. -/
abbrev fanAuto : Nibble := 0x1
abbrev fanTurbo : Nibble := 0x3
abbrev fanSpeed3 : Nibble := 0x2
abbrev fanSpeed2 : Nibble := 0x4
abbrev fanSpeed1 : Nibble := 0x8
abbrev fanQuiet : Nibble := 0x9

/-- The temperature range and its default (R7, R127). -/
abbrev tempMin : Int := 16
abbrev tempMax : Int := 30
abbrev tempDefault : Nat := 24

/-- The largest hour and minute (R83, R84). -/
abbrev hourMax : Int := 23
abbrev minuteMax : Int := 59

/-- The nominal durations in microseconds (R8, R94). -/
def micros : Nominal → Nat
  | .short => 368
  | .one => 944
  | .headerSpace => 2408
  | .headerMark => 4652
  | .gap => 20340

/-- The carrier frequency declared with every transmission (R97). -/
abbrev carrierHz : Nat := 38000

end Sys2Proof.Machine
end

