-- ==== Sys2Proof/Machine/Window.lean ====
section
/-! DEFINITION. The constraints on the receive window and its default instance (R190, R191 of
spec/43_line_codec.md). The window itself is data: `Sys2Proof.Window`. -/

namespace Sys2Proof.Machine

/-- A measured duration lies in a window, bounds included (R9). -/
def inBounds (b : Bounds) (d : Nat) : Bool := decide (b.lo ≤ d) && decide (d ≤ b.hi)

/-- W1: each nominal duration matches itself (R190). -/
def windowW1 (w : Window) : Prop :=
  ∀ n : Nominal, (w.bounds n).lo ≤ micros n ∧ micros n ≤ (w.bounds n).hi

/-- W2: a data space is never both a one and a zero (R190). -/
def windowW2 (w : Window) : Prop := w.short.hi < w.one.lo

/-- W3: windows of different nominals of one kind are disjoint (R190, in the form it has under W1). -/
def windowW3 (w : Window) : Prop :=
  w.short.hi < w.headerMark.lo ∧
  w.short.hi < w.one.lo ∧ w.one.hi < w.headerSpace.lo ∧ w.headerSpace.hi < w.gap.lo

/-- The three constraints together, the premise of claims about DEMODULATE and RECEIVE (R190). -/
def windowValid (w : Window) : Prop := windowW1 w ∧ windowW2 w ∧ windowW3 w

/-- The bounds of one nominal at a tolerance of `tol` percent (R191). -/
def toleranceBounds (tol : Nat) (n : Nominal) : Bounds :=
  ⟨((100 - tol) * micros n) / 100, ((100 + tol) * micros n) / 100⟩

/-- The window of a tolerance in percent (R191). -/
def windowOfTolerance (tol : Nat) : Window where
  short := toleranceBounds tol .short
  one := toleranceBounds tol .one
  headerSpace := toleranceBounds tol .headerSpace
  headerMark := toleranceBounds tol .headerMark
  gap := toleranceBounds tol .gap

/-- The default instance, `TOL = 25` (R191). PRESUMED: the spec takes it from general knowledge (log 8). -/
def windowDefault : Window := windowOfTolerance 25

end Sys2Proof.Machine
end

