-- ==== Sys2Proof/Machine/State.lean ====
section
/-! DEFINITION. The state of the machine as plain data, why a run can stop, and the state after reset
(spec/10_state.md; INVENTORY.md lists every field). -/

namespace Sys2Proof.Machine

/-- A frame: eight bytes, byte 0 first (R30, R80). -/
structure Frame where
  b0 : Byte
  b1 : Byte
  b2 : Byte
  b3 : Byte
  b4 : Byte
  b5 : Byte
  b6 : Byte
  b7 : Byte
deriving DecidableEq, Repr

/-- The outcomes of a receive (R231). -/
inductive Reason where
  | none
  | header
  | bit
  | checksum
  | footer
  | headerByte
deriving DecidableEq, Repr

/-- `fail R(p)`: a demodulation that ended with outcome `reason` after `pos` items (R194). -/
structure RxFailure where
  reason : Reason
  pos    : Nat
deriving DecidableEq, Repr

/-- What a command answers on its output (the `result` lines of the command rules). DESIGN CHOICE, log 6: the
spec gives each command an output and not the form in which it stands there. -/
inductive Result where
  /-- The command answers nothing. -/
  | empty
  /-- FRAME_READ (R122). -/
  | frame (f : Frame)
  /-- GET_MODE: the name and the raw nibble (R124). -/
  | mode (name : ModeName) (raw : Nibble)
  /-- GET_FAN: the name and the raw nibble (R126). -/
  | fan (name : FanName) (raw : Nibble)
  /-- GET_TEMP: the temperature and the raw value (R128). -/
  | temp (t raw : Nat)
  /-- GET_TIME: hour, minute (R130). -/
  | time (hour minute : Nat)
  /-- GET_ON_TIMER, GET_OFF_TIMER: hour, half-hour, active (R132, R134). -/
  | timer (hour : Nat) (half act : Bool)
  /-- The one-bit answers: GET_SWING, GET_SLEEP, GET_POWER_TOGGLE, IS_VALID (R136, R138, R140, R174). -/
  | bit (v : Bool)
  /-- CHECKSUM (R172). -/
  | nibble (v : Nibble)
  /-- DECODE (R142). -/
  | decoded (d : DecodedState)
  /-- MODULATE: the items and the declared carrier (R193). -/
  | transmit (items : Items) (carrier : Nat)
  /-- DEMODULATE: the frame and the items consumed, or the failure (R194). -/
  | demodulated (r : Except RxFailure (Frame × Nat))
  /-- RECEIVE: the frame, or failure with nothing more (R195). -/
  | received (r : Option Frame)
  /-- STATUS_READ (R196). -/
  | status (v : Word16)
deriving DecidableEq, Repr

/-- What reaches the block from outside: a command of the host, or a reset (R260, R270; logs 1 and 3). -/
inductive Input where
  | command (c : RawCommand)
  | reset
deriving DecidableEq, Repr

/-- The state. `frame`, `frameW` and `rxStatus` are the spec's (R30, R31, R35); the other three are the model's own. -/
structure State where
  /-- `FRAME`, eight bytes (R30). -/
  frame    : Frame
  /-- `FRAME_W`, the written-state of FRAME: whether a command has given the frame a value since reset (R31). -/
  frameW   : Bool
  /-- `RX_STATUS` (R35). -/
  rxStatus : Word16
  /-- What the last command answered (log 6). -/
  result   : Result
  /-- What the host has issued and the block has not taken yet, oldest first (log 1). -/
  pending  : List Input
  /-- The parameter `WIN`; no command writes it (R9, R40; log 8). -/
  win      : Window
deriving DecidableEq, Repr

/-- Why the machine stops with a fault. -/
inductive Fault where
  /-- `FrameUnwritten` (R31, R234): a command that reads FRAME while FRAME_W = 0 makes no change to the state and ends the
  model's run. Raised by `guardedExec`, through which a step runs every command; `exec` itself never stops, as the block
  never does (R230). Safe (D7). -/
  | frameUnwritten
deriving DecidableEq, Repr

/-- Why the machine has no step for a command. -/
inductive Refusal where
  /-- A command that has no meaning in the model yet; raised by no arm of `exec` now. Safe. -/
  | notModelled (mnemonic : String)
  /-- `IllegalCommand` (R101, R235): an unassigned selector or ill-typed operands. Raised by `step`, from the decoder.
  Safe: the spec has the model refuse it. That the run does not go on after it is the model's choice (log 24). -/
  | illegalCommand (why : DecodeError)
deriving DecidableEq, Repr

/-- The state after reset (R43, R260): FRAME unwritten (FRAME_W = 0), RX_STATUS 0x0000. The spec gives the bytes of
FRAME no value at reset; they are zero here (DESIGN CHOICE, log 23). The output and the queue are empty (DESIGN CHOICE,
logs 1 and 6); the window is the default instance (PRESUMED, log 8). -/
def State.reset : State where
  frame := ⟨0x00, 0x00, 0x00, 0x00, 0x00, 0x00, 0x00, 0x00⟩
  frameW := false
  rxStatus := 0x0000
  result := .empty
  pending := []
  win := windowDefault

end Sys2Proof.Machine
end

