-- ==== Sys2Proof/Machine/Ops.lean ====
section
/-! DEFINITION. The named operations on bytes, on the frame and on the state, which the meanings share.

The block takes no exception and returns from none (R230, R237 of spec/60_exceptions.md), so there is no operation
for that. The model-level condition `FrameUnwritten` (R234), which the block does not report, is tested before a command
is executed, in Sys2Proof/Machine/Guard.lean. -/

namespace Sys2Proof.Machine

/-! ## Bytes -/

/-- The low nibble, `b[3:0]` (R12, R170). -/
def lo (b : Byte) : Nibble := b.extractLsb' 0 4

/-- The high nibble, `b[7:4]` (R12, R170). -/
def hi (b : Byte) : Nibble := b.extractLsb' 4 4

/-- The byte with high nibble `h` and low nibble `l`: `{h, l}` (R13). -/
def nibbles (h l : Nibble) : Byte := h ++ l

/-- `b[3:0] <- v`, the other bits kept (R13, R66). -/
def setLo (b : Byte) (v : Nibble) : Byte := nibbles (hi b) v

/-- `b[7:4] <- v`, the other bits kept (R13, R66). -/
def setHi (b : Byte) (v : Nibble) : Byte := nibbles v (lo b)

/-- `b[j]` (R12). -/
def bitOf (b : Byte) (j : Nat) : Bool := b.getLsbD j

/-- `b[j] <- v`, the other bits kept (R13, R66). -/
def setBit (b : Byte) (j : Nat) (v : Bool) : Byte :=
  if v then b ||| (1#8 <<< j) else b &&& ~~~(1#8 <<< j)

/-- The byte whose bit `j` is `p j`. -/
def byteOfBits (p : Nat → Bool) : Byte :=
  BitVec.ofBool (p 7) ++ BitVec.ofBool (p 6) ++ BitVec.ofBool (p 5) ++ BitVec.ofBool (p 4) ++
  BitVec.ofBool (p 3) ++ BitVec.ofBool (p 2) ++ BitVec.ofBool (p 1) ++ BitVec.ofBool (p 0)

/-- The bits of a byte, least significant first (R62). -/
def byteBits (b : Byte) : List Bool :=
  [bitOf b 0, bitOf b 1, bitOf b 2, bitOf b 3, bitOf b 4, bitOf b 5, bitOf b 6, bitOf b 7]

/-! ## The frame as a byte space and as a row of bits -/

/-- The bytes of a frame in index order (R65). -/
def Frame.bytes (f : Frame) : List Byte := [f.b0, f.b1, f.b2, f.b3, f.b4, f.b5, f.b6, f.b7]

/-- `FRAME[a]`; no index outside 0..7 exists (R60). -/
def Frame.byte? (f : Frame) (a : Nat) : Option Byte := f.bytes[a]?

/-- `FRAME[a] <- v`; nothing at an index that does not exist (R60). -/
def Frame.setByte (f : Frame) (a : Nat) (v : Byte) : Frame :=
  match a with
  | 0 => { f with b0 := v }
  | 1 => { f with b1 := v }
  | 2 => { f with b2 := v }
  | 3 => { f with b3 := v }
  | 4 => { f with b4 := v }
  | 5 => { f with b5 := v }
  | 6 => { f with b6 := v }
  | 7 => { f with b7 := v }
  | _ => f

/-- `MemRead(a, n)`: bytes `FRAME[a] .. FRAME[a+n-1]` (R13), none where one of them does not exist. -/
def Frame.memRead (f : Frame) (a : Nat) : Nat → Option (List Byte)
  | 0 => some []
  | n + 1 =>
    match f.byte? a, f.memRead (a + 1) n with
    | some b, some bs => some (b :: bs)
    | _, _ => none

/-- `MemWrite(a, n, v)` for the `n` bytes `v` (R13), in index order (R65). -/
def Frame.memWrite (f : Frame) (a : Nat) : List Byte → Frame
  | [] => f
  | b :: bs => (f.setByte a b).memWrite (a + 1) bs

/-- The 64 data bits in line order: byte 0 first, least significant bit first (R62). -/
def Frame.bits (f : Frame) : List Bool := f.bytes.flatMap byteBits

/-- The frame whose data bit `n` is `bs[n]`: `G[n div 8][n mod 8] <- bs[n]` (R62, R194). -/
def Frame.ofBits (bs : List Bool) : Frame where
  b0 := byteOfBits fun j => bs.getD (8 * 0 + j) false
  b1 := byteOfBits fun j => bs.getD (8 * 1 + j) false
  b2 := byteOfBits fun j => bs.getD (8 * 2 + j) false
  b3 := byteOfBits fun j => bs.getD (8 * 3 + j) false
  b4 := byteOfBits fun j => bs.getD (8 * 4 + j) false
  b5 := byteOfBits fun j => bs.getD (8 * 5 + j) false
  b6 := byteOfBits fun j => bs.getD (8 * 6 + j) false
  b7 := byteOfBits fun j => bs.getD (8 * 7 + j) false

/-- Data bit `n` of the line, `FRAME[n div 8][n mod 8]` (R62). -/
def Frame.dataBit (f : Frame) (n : Nat) : Bool :=
  match f.byte? (n / 8) with
  | some b => bitOf b (n % 8)
  | none => false

/-- One byte of the frame byte space; none at an index that does not exist (R60). -/
def readByte (s : State) (a : Nat) : Option Byte := s.frame.byte? a

/-- The frame byte space as a list of cells (R13, R60): the same bytes, seen as addresses and contents. An address
that is not listed does not exist. -/
def memoryCells (s : State) : List Host.Cell :=
  [(0, s.frame.b0), (1, s.frame.b1), (2, s.frame.b2), (3, s.frame.b3),
   (4, s.frame.b4), (5, s.frame.b5), (6, s.frame.b6), (7, s.frame.b7)]

/-- The canonical form of a list of cells: addresses strictly rising, all in 0..7. -/
def memoryWf : List Host.Cell → Bool
  | [] => true
  | [(a, _)] => decide (a < 8)
  | (a, _) :: (a', v) :: rest => decide (a < a') && memoryWf ((a', v) :: rest)

/-- The content of an address in a list of cells. -/
def memoryLookup (cells : List Host.Cell) (a : Nat) : Option Byte := cells.lookup a

/-! ## The state -/

/-- FRAME is given a value: FRAME_W becomes 1 (R31). -/
def State.setFrame (s : State) (f : Frame) : State := { s with frame := f, frameW := true }
/-- The bytes of FRAME are changed in place: FRAME_W is as it was (R31). -/
def State.setBytes (s : State) (f : Frame) : State := { s with frame := f }
def State.setStatus (s : State) (v : Word16) : State := { s with rxStatus := v }
def State.answer (s : State) (r : Result) : State := { s with result := r }
def State.setPending (s : State) (l : List Input) : State := { s with pending := l }

/-- The reset event (R260): every piece of state at its reset value, the window unchanged. What the host has
issued after the reset stays issued (log 3). -/
def State.applyReset (s : State) : State := { State.reset with pending := s.pending, win := s.win }

/-- A command that reads FRAME and answers `k` of it, writing nothing (R33, R68). This is the block's effect, which does
not ask for FRAME_W (R230); a step comes here only with FRAME_W = 1 (R234, `guardedExec`; log 7). -/
def readFrame (k : Frame → Result) (s : State) : Host.Outcome State Fault Refusal := .next (s.answer (k s.frame))

/-- A command that changes FRAME to `g` of it and answers nothing (R33); FRAME_W stays as it is (R31). This is the
block's effect, which does not ask for FRAME_W (R230); a step comes here only with FRAME_W = 1 (R234, `guardedExec`;
log 7). -/
def updateFrame (g : Frame → Frame) (s : State) : Host.Outcome State Fault Refusal :=
  .next ((s.setBytes (g s.frame)).answer .empty)

/-- A command that gives FRAME the value `f`, whatever it held, and answers nothing; FRAME_W becomes 1 (R31). -/
def replaceFrame (f : Frame) (s : State) : Host.Outcome State Fault Refusal :=
  .next ((s.setFrame f).answer .empty)

end Sys2Proof.Machine
end

