-- ==== Sys2Proof/Machine/Operands.lean ====
section
/-! DEFINITION. The operand forms and field forms of the frame (R89 to R92 of spec/30_encoding.md; the defaults of
spec/41_frame_fields.md). -/

namespace Sys2Proof.Machine

/-- `bcd8(v)`: tens digit in bits 7:4, ones digit in bits 3:0 (R15, R91). -/
def bcd8 (v : Nat) : Byte := nibbles (BitVec.ofNat 4 (v / 10)) (BitVec.ofNat 4 (v % 10))

/-- `unbcd(b)`: no digit is checked (R15, R91). -/
def unbcd (b : Byte) : Nat := 10 * (hi b).toNat + (lo b).toNat

/-- `timer8(h, hf, a)` (R92). -/
def timer8 (h : Nat) (hf act : Bool) : Byte :=
  BitVec.ofBool act ++ BitVec.ofBool hf ++ BitVec.ofNat 2 (h / 10) ++ BitVec.ofNat 4 (h % 10)

/-- The hour of a timer byte: `10 * b[5:4] + b[3:0]` (R92). -/
def timerHour (b : Byte) : Nat := 10 * (b.extractLsb' 4 2).toNat + (lo b).toNat

/-- The half-hour flag of a timer byte (R92). -/
def timerHalf (b : Byte) : Bool := bitOf b 6

/-- The active flag of a timer byte (R92). -/
def timerActive (b : Byte) : Bool := bitOf b 7

/-- The mode codes SET_MODE recognizes, as 8-bit operands (R89, R123). -/
def modeCodes : List Byte := [modeDry, modeCool, modeFan].map (BitVec.setWidth 8)

/-- The code SET_MODE writes: COOL for every code it does not recognize (R123). -/
def modeOrDefault (code : Byte) : Nibble := if code ∈ modeCodes then lo code else modeCool

/-- The name of a mode nibble (R89, R124). -/
def modeName (n : Nibble) : ModeName :=
  if n = modeDry then .dry
  else if n = modeCool then .cool
  else if n = modeFan then .fan
  else .unrecognized

/-- The fan codes SET_FAN recognizes, as 8-bit operands (R90, R125). -/
def fanCodes : List Byte :=
  [fanAuto, fanSpeed3, fanTurbo, fanSpeed2, fanSpeed1, fanQuiet].map (BitVec.setWidth 8)

/-- The code SET_FAN writes: AUTO for every code it does not recognize (R125, the spec's decision D5; log 10). -/
def fanOrDefault (code : Byte) : Nibble := if code ∈ fanCodes then lo code else fanAuto

/-- The name of a fan nibble (R90, R126). -/
def fanName (n : Nibble) : FanName :=
  if n = fanAuto then .auto
  else if n = fanTurbo then .turbo
  else if n = fanSpeed3 then .speed3
  else if n = fanSpeed2 then .speed2
  else if n = fanSpeed1 then .speed1
  else if n = fanQuiet then .quiet
  else .unrecognized

/-- The temperature SET_TEMP writes: 24 outside [16, 30] (R127). -/
def tempOrDefault (a : Int) : Nat :=
  if tempMin ≤ a ∧ a ≤ tempMax then a.toNat else tempDefault

/-- An hour in its range (R129, R131). -/
def hourOk (h : Int) : Bool := decide (0 ≤ h) && decide (h ≤ hourMax)

/-- A minute in its range (R129). -/
def minuteOk (m : Int) : Bool := decide (0 ≤ m) && decide (m ≤ minuteMax)

/-- The hour and minute SET_TIME writes: both 0 when either is out of range (R129). -/
def timeOrZero (h m : Int) : Nat × Nat :=
  if hourOk h && minuteOk m then (h.toNat, m.toNat) else (0, 0)

/-- The hour a timer setter writes: 0 out of range (R131, R133; the spec's decision D12, log 14). -/
def timerHourOrZero (h : Int) : Nat := if hourOk h then h.toNat else 0

end Sys2Proof.Machine
end

