-- ==== Sys2Proof/Machine/Checksum.lean ====
section
/-! DEFINITION. The checksum, CHECKSUM, FINALIZE and IS_VALID (R170 to R177 of spec/42_checksum.md). -/

namespace Sys2Proof.Machine

/-- The sum of the 15 nibbles, eight low and seven high: byte 7's own high nibble is no term (R171). No term is
reversed (R177). -/
def nibbleSum (f : Frame) : Nat :=
  (lo f.b0).toNat + (lo f.b1).toNat + (lo f.b2).toNat + (lo f.b3).toNat +
  (lo f.b4).toNat + (lo f.b5).toNat + (lo f.b6).toNat + (lo f.b7).toNat +
  ((hi f.b0).toNat + (hi f.b1).toNat + (hi f.b2).toNat + (hi f.b3).toNat +
   (hi f.b4).toNat + (hi f.b5).toNat + (hi f.b6).toNat)

/-- `cs(F)`, the sum mod 16 (R171). -/
def cs (f : Frame) : Nibble := BitVec.ofNat 4 (nibbleSum f)

/-- The frame with its checksum written (R173). -/
def finalizeOf (f : Frame) : Frame := { f with b7 := setHi f.b7 (cs f) }

/-- The header byte and the checksum nibble are right (R174). -/
def frameValid (f : Frame) : Bool := decide (f.b0 = headerByte) && decide (hi f.b7 = cs f)

/-- CHECKSUM (R172). -/
def execChecksum (s : State) : Host.Outcome State Fault Refusal := readFrame (fun f => .nibble (cs f)) s

/-- FINALIZE (R173). -/
def execFinalize (s : State) : Host.Outcome State Fault Refusal := updateFrame finalizeOf s

/-- IS_VALID (R174). -/
def execIsValid (s : State) : Host.Outcome State Fault Refusal := readFrame (fun f => .bit (frameValid f)) s

end Sys2Proof.Machine
end

