-- ==== Sys2Proof/Machine/Fields.lean ====
section
/-! DEFINITION. The field accessors (R123 to R140 of spec/41_frame_fields.md). Each setter is first a function of
the frame, which ENCODE uses too; no setter touches the checksum nibble (R143). -/

namespace Sys2Proof.Machine

/-! ## Operation mode and fan mode, byte 1 -/

def setModeOf (code : Byte) (f : Frame) : Frame := { f with b1 := setLo f.b1 (modeOrDefault code) }
def setFanOf (code : Byte) (f : Frame) : Frame := { f with b1 := setHi f.b1 (fanOrDefault code) }

/-- SET_MODE (R123). -/
def execSetMode (code : Byte) (s : State) : Host.Outcome State Fault Refusal := updateFrame (setModeOf code) s

/-- GET_MODE (R124). -/
def execGetMode (s : State) : Host.Outcome State Fault Refusal :=
  readFrame (fun f => .mode (modeName (lo f.b1)) (lo f.b1)) s

/-- SET_FAN (R125). -/
def execSetFan (code : Byte) (s : State) : Host.Outcome State Fault Refusal := updateFrame (setFanOf code) s

/-- GET_FAN (R126). -/
def execGetFan (s : State) : Host.Outcome State Fault Refusal :=
  readFrame (fun f => .fan (fanName (hi f.b1)) (hi f.b1)) s

/-! ## Temperature, byte 6 -/

def setTempOf (a : Int) (f : Frame) : Frame := { f with b6 := bcd8 (tempOrDefault a) }

/-- The temperature and the raw value of byte 6 (R128): the default outside [16, 30] is the spec's decision D13
(log 15). -/
def tempOf (b : Byte) : Nat × Nat := (tempOrDefault (unbcd b), unbcd b)

/-- SET_TEMP (R127). -/
def execSetTemp (a : Int) (s : State) : Host.Outcome State Fault Refusal := updateFrame (setTempOf a) s

/-- GET_TEMP (R128). -/
def execGetTemp (s : State) : Host.Outcome State Fault Refusal :=
  readFrame (fun f => .temp (tempOf f.b6).1 (tempOf f.b6).2) s

/-! ## Current time, bytes 2 and 3 -/

def setTimeOf (h m : Int) (f : Frame) : Frame :=
  { f with b3 := bcd8 (timeOrZero h m).1, b2 := bcd8 (timeOrZero h m).2 }

/-- SET_TIME (R129). -/
def execSetTime (h m : Int) (s : State) : Host.Outcome State Fault Refusal := updateFrame (setTimeOf h m) s

/-- GET_TIME (R130). -/
def execGetTime (s : State) : Host.Outcome State Fault Refusal :=
  readFrame (fun f => .time (unbcd f.b3) (unbcd f.b2)) s

/-! ## Timers, bytes 4 and 5 -/

def setOnTimerOf (h : Int) (hf act : Bool) (f : Frame) : Frame :=
  { f with b4 := timer8 (timerHourOrZero h) hf act }
def setOffTimerOf (h : Int) (hf act : Bool) (f : Frame) : Frame :=
  { f with b5 := timer8 (timerHourOrZero h) hf act }

/-- SET_ON_TIMER (R131). -/
def execSetOnTimer (h : Int) (hf act : Bool) (s : State) : Host.Outcome State Fault Refusal :=
  updateFrame (setOnTimerOf h hf act) s

/-- GET_ON_TIMER (R132). -/
def execGetOnTimer (s : State) : Host.Outcome State Fault Refusal :=
  readFrame (fun f => .timer (timerHour f.b4) (timerHalf f.b4) (timerActive f.b4)) s

/-- SET_OFF_TIMER (R133). -/
def execSetOffTimer (h : Int) (hf act : Bool) (s : State) : Host.Outcome State Fault Refusal :=
  updateFrame (setOffTimerOf h hf act) s

/-- GET_OFF_TIMER (R134). -/
def execGetOffTimer (s : State) : Host.Outcome State Fault Refusal :=
  readFrame (fun f => .timer (timerHour f.b5) (timerHalf f.b5) (timerActive f.b5)) s

/-! ## Swing, sleep and power toggle, byte 7 bits 0, 1 and 3 -/

def setSwingOf (v : Bool) (f : Frame) : Frame := { f with b7 := setBit f.b7 0 v }
def setSleepOf (v : Bool) (f : Frame) : Frame := { f with b7 := setBit f.b7 1 v }
def setPowerToggleOf (v : Bool) (f : Frame) : Frame := { f with b7 := setBit f.b7 3 v }

/-- SET_SWING (R135). -/
def execSetSwing (v : Bool) (s : State) : Host.Outcome State Fault Refusal := updateFrame (setSwingOf v) s

/-- GET_SWING (R136). -/
def execGetSwing (s : State) : Host.Outcome State Fault Refusal := readFrame (fun f => .bit (bitOf f.b7 0)) s

/-- SET_SLEEP (R137). -/
def execSetSleep (v : Bool) (s : State) : Host.Outcome State Fault Refusal := updateFrame (setSleepOf v) s

/-- GET_SLEEP (R138). -/
def execGetSleep (s : State) : Host.Outcome State Fault Refusal := readFrame (fun f => .bit (bitOf f.b7 1)) s

/-- SET_POWER_TOGGLE (R139): the block does not clear the flag by itself (R42, R265). -/
def execSetPowerToggle (v : Bool) (s : State) : Host.Outcome State Fault Refusal :=
  updateFrame (setPowerToggleOf v) s

/-- GET_POWER_TOGGLE (R140). -/
def execGetPowerToggle (s : State) : Host.Outcome State Fault Refusal :=
  readFrame (fun f => .bit (bitOf f.b7 3)) s

end Sys2Proof.Machine
end

