-- ==== Sys2Proof/Machine/FrameAccess.lean ====
section
/-! DEFINITION. FRAME_INIT, FRAME_LOAD, FRAME_READ (R120 to R122 of spec/41_frame_fields.md). -/

namespace Sys2Proof.Machine

/-- The fresh frame (R120; its zero bytes are the spec's decision D8, log 11). -/
def freshFrame : Frame := ⟨headerByte, 0x00, 0x00, 0x00, 0x00, 0x00, 0x00, 0x00⟩

/-- FRAME_INIT (R120). -/
def execFrameInit (s : State) : Host.Outcome State Fault Refusal := replaceFrame freshFrame s

/-- FRAME_LOAD (R121): any bytes, nothing validated. -/
def execFrameLoad (b0 b1 b2 b3 b4 b5 b6 b7 : Byte) (s : State) : Host.Outcome State Fault Refusal :=
  replaceFrame ⟨b0, b1, b2, b3, b4, b5, b6, b7⟩ s

/-- FRAME_READ (R122). -/
def execFrameRead (s : State) : Host.Outcome State Fault Refusal := readFrame .frame s

end Sys2Proof.Machine
end

