-- ==== Sys2Proof/Machine/Composite.lean ====
section
/-! DEFINITION. ENCODE and DECODE (R141, R142 of spec/41_frame_fields.md). -/

namespace Sys2Proof.Machine

/-- The frame ENCODE builds: the named commands' rules, applied in the order of R141. -/
def encodeFrame (ls : LogicalState) : Frame :=
  let f := freshFrame
  let f := setModeOf ls.mode f
  let f := setFanOf ls.fan f
  let f := setTempOf ls.temp f
  let f := setTimeOf ls.hour ls.minute f
  let f := setOnTimerOf ls.onH ls.onHalf ls.onAct f
  let f := setOffTimerOf ls.offH ls.offHalf ls.offAct f
  let f := setSwingOf ls.swing f
  let f := setSleepOf ls.sleep f
  let f := setPowerToggleOf ls.powerToggle f
  finalizeOf f

/-- The fields of a frame, each as its getter reads it; nothing is validated (R142). -/
def decodeFrame (f : Frame) : DecodedState where
  mode := modeName (lo f.b1)
  modeRaw := lo f.b1
  fan := fanName (hi f.b1)
  fanRaw := hi f.b1
  temp := (tempOf f.b6).1
  tempRaw := (tempOf f.b6).2
  hour := unbcd f.b3
  minute := unbcd f.b2
  onH := timerHour f.b4
  onHalf := timerHalf f.b4
  onAct := timerActive f.b4
  offH := timerHour f.b5
  offHalf := timerHalf f.b5
  offAct := timerActive f.b5
  swing := bitOf f.b7 0
  sleep := bitOf f.b7 1
  powerToggle := bitOf f.b7 3

/-- ENCODE (R141). -/
def execEncode (ls : LogicalState) (s : State) : Host.Outcome State Fault Refusal :=
  replaceFrame (encodeFrame ls) s

/-- DECODE (R142). -/
def execDecode (s : State) : Host.Outcome State Fault Refusal := readFrame (fun f => .decoded (decodeFrame f)) s

end Sys2Proof.Machine
end

