-- ==== Sys2Proof/Machine/Flags.lean ====
section
/-! DEFINITION. `RX_STATUS`, the one status register, whose bit OK is the only flag of the block (R35, R36 of
spec/10_state.md, R231 of spec/60_exceptions.md). -/

namespace Sys2Proof.Machine

/-- The outcome codes (R231). -/
def Reason.code : Reason → BitVec 3
  | .none => 0
  | .header => 1
  | .bit => 2
  | .checksum => 3
  | .footer => 4
  | .headerByte => 5

/-- `{POS, 0b0000, REASON, OK}` (R35, R196). -/
def statusPack (pos : Byte) (reason : BitVec 3) (ok : Bool) : Word16 :=
  pos ++ 0#4 ++ reason ++ BitVec.ofBool ok

/-- Bit 0 (R35). -/
def statusOk (v : Word16) : Bool := v.getLsbD 0

/-- Bits 3:1 (R35). -/
def statusReason (v : Word16) : BitVec 3 := v.extractLsb' 1 3

/-- Bits 7:4, reserved (R35). -/
def statusReserved (v : Word16) : Nibble := v.extractLsb' 4 4

/-- Bits 15:8 (R35). -/
def statusPos (v : Word16) : Byte := v.extractLsb' 8 8

/-- RX_STATUS as DEMODULATE and RECEIVE write it (R194, R195); `pos` is at most 133 there. -/
def statusWord (ok : Bool) (reason : Reason) (pos : Nat) : Word16 :=
  statusPack (BitVec.ofNat 8 pos) reason.code ok

/-- RX_STATUS as it reads: its reserved bits always read 0 (R35, R196). -/
def statusRead (v : Word16) : Word16 := statusPack (statusPos v) (statusReason v) (statusOk v)

end Sys2Proof.Machine
end

