-- ==== Sys2Proof/Machine/LineCodec.lean ====
section
/-! DEFINITION. The line format (R94 to R97 of spec/30_encoding.md) and MODULATE, DEMODULATE, RECEIVE, STATUS_READ
(R192 to R200 of spec/43_line_codec.md, R231 to R233 of spec/60_exceptions.md). -/

namespace Sys2Proof.Machine

/-! ## Modulation -/

/-- One symbol of the line: a kind and a nominal duration. -/
abbrev LineSymbol := Kind × Nominal

/-- The two symbols of a data bit: the value is carried by the space alone (R95). -/
def bitSymbols (b : Bool) : List LineSymbol := [(.mark, .short), (.space, if b then .one else .short)]

/-- The symbols of a modulated frame: header, 64 data bits, footer, closing mark (R95, R96, R193). -/
def lineSymbols (f : Frame) : List LineSymbol :=
  [(.mark, .headerMark), (.space, .headerSpace)] ++ f.bits.flatMap bitSymbols ++
  [(.mark, .short), (.space, .gap), (.mark, .headerMark)]

/-- `emit(kind, d)` at the nominal duration (R13, R94). -/
def emit (y : LineSymbol) : Item := ⟨y.1, micros y.2⟩

/-- `TX_ITEMS` (R38, R193). -/
def modulateFrame (f : Frame) : Items := (lineSymbols f).map emit

/-- The time a list of items takes on the line, in microseconds (R199). -/
def itemsDuration (e : Items) : Nat := (e.map (·.dur)).sum

/-! ## Demodulation -/

/-- The matching primitive (R192). -/
def itemMatches (w : Window) (e : Items) (k : Nat) (kind : Kind) (n : Nominal) : Bool :=
  match e[k]? with
  | some it => decide (it.kind = kind) && inBounds (w.bounds n) it.dur
  | none => false

/-- `expect(kind, n)`: the next cursor, or the failure named after it (R194). -/
def expect (w : Window) (e : Items) (kind : Kind) (n : Nominal) (r : Reason) (k : Nat) : Except RxFailure Nat :=
  if itemMatches w e k kind n then .ok (k + 1) else .error ⟨r, k⟩

/-- One data bit: its mark, then its space, the one-window tested first (R194, D18). -/
def expectBit (w : Window) (e : Items) (k : Nat) : Except RxFailure (Bool × Nat) := do
  let k ← expect w e .mark .short .bit k
  if itemMatches w e k .space .one then
    return (true, k + 1)
  else if itemMatches w e k .space .short then
    return (false, k + 1)
  else
    .error ⟨.bit, k⟩

/-- A number of data bits from the cursor on, in line order (R194). -/
def expectBits (w : Window) (e : Items) : Nat → Nat → Except RxFailure (List Bool × Nat)
  | 0, k => .ok ([], k)
  | c + 1, k => do
    let (b, k) ← expectBit w e k
    let (bs, k) ← expectBits w e c k
    return (b :: bs, k)

/-- `demod(e)` (R194): the frame and the number of items consumed, or the first check that fails (R233). -/
def demod (w : Window) (e : Items) : Except RxFailure (Frame × Nat) := do
  let k ← expect w e .mark .headerMark .header 0
  let k ← expect w e .space .headerSpace .header k
  let (bs, k) ← expectBits w e 64 k
  let g := Frame.ofBits bs
  if hi g.b7 ≠ cs g then
    .error ⟨.checksum, k⟩
  else
    let k ← expect w e .mark .short .footer k
    let k ← expect w e .space .gap .footer k
    let k ← expect w e .mark .headerMark .footer k
    return (g, k)

/-- RECEIVE's verdict (R195): `demod`, then the header byte. -/
def receiveCheck (w : Window) (e : Items) : Except RxFailure (Frame × Nat) :=
  match demod w e with
  | .ok (g, p) => if g.b0 = headerByte then .ok (g, p) else .error ⟨.headerByte, p⟩
  | .error x => .error x

/-- What a receive writes (R194, R195, R232): on success FRAME, FRAME_W and RX_STATUS, on failure RX_STATUS only. -/
def commitReceive (r : Except RxFailure (Frame × Nat)) (s : State) : State :=
  match r with
  | .ok (g, p) => (s.setFrame g).setStatus (statusWord true .none p)
  | .error x => s.setStatus (statusWord false x.reason x.pos)

/-- MODULATE (R193): the frame as it stands, its checksum neither computed nor checked. -/
def execModulate (s : State) : Host.Outcome State Fault Refusal :=
  readFrame (fun f => .transmit (modulateFrame f) carrierHz) s

/-- DEMODULATE (R194). -/
def execDemodulate (e : Items) (s : State) : Host.Outcome State Fault Refusal :=
  .next ((commitReceive (demod s.win e) s).answer (.demodulated (demod s.win e)))

/-- What RECEIVE answers: the frame, or failure (R195). -/
def receivedFrame (r : Except RxFailure (Frame × Nat)) : Option Frame :=
  match r with
  | .ok (g, _) => some g
  | .error _ => none

/-- RECEIVE (R195). -/
def execReceive (e : Items) (s : State) : Host.Outcome State Fault Refusal :=
  .next ((commitReceive (receiveCheck s.win e) s).answer (.received (receivedFrame (receiveCheck s.win e))))

/-- STATUS_READ (R196); allowed with FRAME_W = 0. -/
def execStatusRead (s : State) : Host.Outcome State Fault Refusal :=
  .next (s.answer (.status (statusRead s.rxStatus)))

/-! ## The sequencer view (R200), informative and no state -/

/-- The phases of R200 at which an item is emitted or matched, and DONE. The check of the checksum stands between
indices 129 and 130 and consumes no item. -/
inductive Phase where
  | header
  | data (bit : Nat) (kind : Kind)
  | footer
  | close
  | done
deriving DecidableEq, Repr

/-- The phase at item index `k` (R200). -/
def phaseAt (k : Nat) : Phase :=
  if k < 2 then .header
  else if k < 130 then .data ((k - 2) / 2) (if k % 2 = 0 then .mark else .space)
  else if k < 132 then .footer
  else if k = 132 then .close
  else .done

end Sys2Proof.Machine
end

