-- ==== Sys2Proof/Machine/Dispatch.lean ====
section
/-! DEFINITION. From a command to its meaning, one arm per constructor. -/

namespace Sys2Proof.Machine

def exec (i : Instr) (s : State) : Host.Outcome State Fault Refusal :=
  match i with
  | .frameInit => Sys2Proof.Machine.execFrameInit s
  | .frameLoad b0 b1 b2 b3 b4 b5 b6 b7 => Sys2Proof.Machine.execFrameLoad b0 b1 b2 b3 b4 b5 b6 b7 s
  | .frameRead => Sys2Proof.Machine.execFrameRead s
  | .setMode code => Sys2Proof.Machine.execSetMode code s
  | .getMode => Sys2Proof.Machine.execGetMode s
  | .setFan code => Sys2Proof.Machine.execSetFan code s
  | .getFan => Sys2Proof.Machine.execGetFan s
  | .setTemp a => Sys2Proof.Machine.execSetTemp a s
  | .getTemp => Sys2Proof.Machine.execGetTemp s
  | .setTime h m => Sys2Proof.Machine.execSetTime h m s
  | .getTime => Sys2Proof.Machine.execGetTime s
  | .setOnTimer h hf act => Sys2Proof.Machine.execSetOnTimer h hf act s
  | .getOnTimer => Sys2Proof.Machine.execGetOnTimer s
  | .setOffTimer h hf act => Sys2Proof.Machine.execSetOffTimer h hf act s
  | .getOffTimer => Sys2Proof.Machine.execGetOffTimer s
  | .setSwing v => Sys2Proof.Machine.execSetSwing v s
  | .getSwing => Sys2Proof.Machine.execGetSwing s
  | .setSleep v => Sys2Proof.Machine.execSetSleep v s
  | .getSleep => Sys2Proof.Machine.execGetSleep s
  | .setPowerToggle v => Sys2Proof.Machine.execSetPowerToggle v s
  | .getPowerToggle => Sys2Proof.Machine.execGetPowerToggle s
  | .checksum => Sys2Proof.Machine.execChecksum s
  | .finalize => Sys2Proof.Machine.execFinalize s
  | .isValid => Sys2Proof.Machine.execIsValid s
  | .encode ls => Sys2Proof.Machine.execEncode ls s
  | .decode => Sys2Proof.Machine.execDecode s
  | .modulate => Sys2Proof.Machine.execModulate s
  | .demodulate e => Sys2Proof.Machine.execDemodulate e s
  | .receive e => Sys2Proof.Machine.execReceive e s
  | .statusRead => Sys2Proof.Machine.execStatusRead s

end Sys2Proof.Machine
end

