-- ==== Sys2Proof/Machine/Guard.lean ====
section
/-! DEFINITION. The model-level condition `FrameUnwritten` of R234 of spec/60_exceptions.md, around `exec`. The block
itself never stops (R230): `exec` gives every command its effect in every state. A step of the model runs a command
through `guardedExec`, which ends the run at a command that reads FRAME while FRAME_W = 0, so that no claim about a run
rests on an unbuilt frame (R31, D7; log 7). -/

namespace Sys2Proof.Machine

/-- The commands that need a written frame: every command but FRAME_INIT, FRAME_LOAD, ENCODE, DEMODULATE, RECEIVE
and STATUS_READ (R234). -/
def needsFrame : Instr → Bool
  | .frameInit => false
  | .frameLoad .. => false
  | .encode _ => false
  | .demodulate _ => false
  | .receive _ => false
  | .statusRead => false
  | .frameRead => true
  | .setMode _ => true
  | .getMode => true
  | .setFan _ => true
  | .getFan => true
  | .setTemp _ => true
  | .getTemp => true
  | .setTime _ _ => true
  | .getTime => true
  | .setOnTimer _ _ _ => true
  | .getOnTimer => true
  | .setOffTimer _ _ _ => true
  | .getOffTimer => true
  | .setSwing _ => true
  | .getSwing => true
  | .setSleep _ => true
  | .getSleep => true
  | .setPowerToggle _ => true
  | .getPowerToggle => true
  | .checksum => true
  | .finalize => true
  | .isValid => true
  | .decode => true
  | .modulate => true

/-- FRAME as R31 speaks of it: no value while FRAME_W = 0. -/
def State.writtenFrame (s : State) : Option Frame := if s.frameW then some s.frame else none

/-- The condition of R234: the command needs a written frame and FRAME_W is 0. -/
def frameUnwritten (i : Instr) (s : State) : Bool := needsFrame i && !s.frameW

/-- A command as a step runs it: the fault of R234 and no change of the state, or the command's own effect. -/
def guardedExec (i : Instr) (s : State) : Host.Outcome State Fault Refusal :=
  if frameUnwritten i s then .fault .frameUnwritten else exec i s

end Sys2Proof.Machine
end

