-- ==== Sys2Proof/Machine/Fetch.lean ====
section
/-! DEFINITION. How the block takes its next input: the block fetches no code (R34, R72); the host issues commands
and they take effect in the order issued (R69). Logs 1 to 3. -/

namespace Sys2Proof.Machine

/-- A command of the host: decoded, then executed, unless it reads an unwritten FRAME (R234); a command the decoder
refuses has no step and leaves the state unchanged (R235), so it stays at the head of the queue (DESIGN CHOICE, log 24). -/
def runCommand (c : RawCommand) (s : State) : Host.Outcome State Fault Refusal :=
  match decode c with
  | .ok i => guardedExec i s
  | .error why => .refused (.illegalCommand why)

/-- One input from outside (R260, R270). -/
def takeInput (x : Input) (s : State) : Host.Outcome State Fault Refusal :=
  match x with
  | .command c => runCommand c s
  | .reset => .next s.applyReset

/-- The oldest input is taken off the queue and acted on; with nothing issued the block is idle and nothing
changes (log 2). -/
def takeNext (s : State) : Host.Outcome State Fault Refusal :=
  match s.pending with
  | [] => .next s
  | x :: rest => takeInput x (s.setPending rest)

/-- The host issues a command: it waits behind what was issued before. -/
def issue (c : RawCommand) (s : State) : State := s.setPending (s.pending ++ [.command c])

/-- The host puts a command in front of all others. -/
def issueFirst (c : RawCommand) (s : State) : State := s.setPending (.command c :: s.pending)

end Sys2Proof.Machine
end

