-- ==== Sys2Proof/Machine/Step.lean ====
section
/-! DEFINITION. One step of the machine, and the host's way to place a word of the opcode table before it. -/

namespace Sys2Proof.Machine

/-- One step: the next input from outside, acted on (R68, R69). -/
def step (s : State) : Host.Outcome State Fault Refusal := takeNext s

/-- `s` with the command of a word of the opcode table issued, to be taken by the very next step (log 5). -/
def State.withFetchWord (s : State) (_nbits w : Nat) : State := issueFirst (tableCommand w) s

end Sys2Proof.Machine
end

