-- ==== Sys2Proof/Machine/Run.lean ====
section
/-! DEFINITION. The model's run with what ended it, kept for the whole run (R234, R235 of spec/60_exceptions.md). That a
refusal ends a run, as a fault does, is the model's choice (log 24). -/

namespace Sys2Proof.Machine

/-- The condition of R234 on the oldest input. -/
def unwrittenAhead (s : State) : Bool :=
  match s.pending with
  | .command c :: _ =>
    match decode c with
    | .ok i => frameUnwritten i s
    | .error _ => false
  | _ => false

/-- What ended a run. -/
inductive RunEnd where
  /-- The fault of R234. -/
  | fault (r : Fault)
  /-- The refusal of R235. That it ends the run is the model's (DESIGN CHOICE, log 24): R235 has it recorded for the run
  and does not say whether the run goes on. -/
  | refused (r : Refusal)
deriving DecidableEq, Repr

/-- The model's run as it stands: the state, and what has ended the run, if anything has; once there, it is "kept for the
whole run" (R234), "recorded for the run" (R235). -/
structure ModelRun where
  state : State
  ended : Option RunEnd
deriving DecidableEq, Repr

/-- The run goes on by one step; a stop makes no change to the state (R234, R235). A run that a fault has ended stays as
it is (R234), and so does one that met a refusal (DESIGN CHOICE, log 24): no later input, a reset among them, is taken. -/
def advanceRun (r : ModelRun) : ModelRun :=
  match r.ended with
  | some _ => r
  | none =>
    match step r.state with
    | .next t => { state := t, ended := none }
    | .fault f => { state := r.state, ended := some (.fault f) }
    | .refused x => { state := r.state, ended := some (.refused x) }

/-- The model's run from a state, after a number of steps. -/
def modelRun (s : State) : Nat → ModelRun
  | 0 => { state := s, ended := none }
  | n + 1 => advanceRun (modelRun s n)

end Sys2Proof.Machine
end

