-- ==== Sys2Proof/Safety.lean ====
section
/-! DEFINITION. The terms in which claims speak of safe runs: what each command reads and writes of FRAME (R33 of
spec/10_state.md), the fields of R143, and what RX_STATUS can hold (R231 of spec/60_exceptions.md). -/

namespace Sys2Proof.Machine

/-- A command is safe to issue in a state: the host has met R262's boot requirement, so the step completes
(R234). -/
def safeToIssue (i : Instr) (s : State) : Prop := needsFrame i = true → s.frameW = true

/-- The fields of R143, one per setter. -/
inductive Field where
  | mode
  | fan
  | temp
  | time
  | onTimer
  | offTimer
  | swing
  | sleep
  | powerToggle
deriving DecidableEq, Repr

/-- The field a setter writes (R143); none for the other commands. -/
def setterField : Instr → Option Field
  | .setMode _ => some .mode
  | .setFan _ => some .fan
  | .setTemp _ => some .temp
  | .setTime _ _ => some .time
  | .setOnTimer _ _ _ => some .onTimer
  | .setOffTimer _ _ _ => some .offTimer
  | .setSwing _ => some .swing
  | .setSleep _ => some .sleep
  | .setPowerToggle _ => some .powerToggle
  | _ => none

/-- The field a getter reads (R143); none for the other commands. -/
def getterField : Instr → Option Field
  | .getMode => some .mode
  | .getFan => some .fan
  | .getTemp => some .temp
  | .getTime => some .time
  | .getOnTimer => some .onTimer
  | .getOffTimer => some .offTimer
  | .getSwing => some .swing
  | .getSleep => some .sleep
  | .getPowerToggle => some .powerToggle
  | _ => none

/-- Whether data bit `n` (byte `n / 8`, bit `n % 8`) belongs to a field: the bit sets of R143. -/
def fieldHasBit : Field → Nat → Bool
  | .mode, n => decide (8 ≤ n) && decide (n < 12)
  | .fan, n => decide (12 ≤ n) && decide (n < 16)
  | .time, n => decide (16 ≤ n) && decide (n < 32)
  | .onTimer, n => decide (32 ≤ n) && decide (n < 40)
  | .offTimer, n => decide (40 ≤ n) && decide (n < 48)
  | .temp, n => decide (48 ≤ n) && decide (n < 56)
  | .swing, n => decide (n = 56)
  | .sleep, n => decide (n = 57)
  | .powerToggle, n => decide (n = 59)

/-- The bits of the checksum nibble, which FINALIZE writes (R143, R173). -/
def checksumHasBit (n : Nat) : Bool := decide (60 ≤ n) && decide (n < 64)

/-- Commands that write neither FRAME nor RX_STATUS (R68). -/
def readsOnly : Instr → Bool
  | .frameRead => true
  | .getMode => true
  | .getFan => true
  | .getTemp => true
  | .getTime => true
  | .getOnTimer => true
  | .getOffTimer => true
  | .getSwing => true
  | .getSleep => true
  | .getPowerToggle => true
  | .checksum => true
  | .isValid => true
  | .decode => true
  | .modulate => true
  | .statusRead => true
  | _ => false

/-- `t` is `s` but for FRAME, FRAME_W and what the command answers: what a command that replaces FRAME keeps. -/
def sameButFrame (s t : State) : Prop := t.rxStatus = s.rxStatus ∧ t.pending = s.pending ∧ t.win = s.win

/-- `t` is `s` but for the bytes of FRAME and what the command answers: what a command that changes FRAME in place
keeps. -/
def sameButBytes (s t : State) : Prop := t.frameW = s.frameW ∧ sameButFrame s t

/-- `t` is `s` but for what the command answers: what a command that only reads keeps. -/
def sameButResult (s t : State) : Prop := t.frame = s.frame ∧ sameButBytes s t

/-- Where a receive that ended with an outcome code may have stopped: the table of R231. -/
def stopsAt (reason : BitVec 3) (pos : Nat) : Prop :=
  (reason = 1 ∧ pos ≤ 1) ∨ (reason = 2 ∧ 2 ≤ pos ∧ pos ≤ 129) ∨ (reason = 3 ∧ pos = 130) ∨
  (reason = 4 ∧ 130 ≤ pos ∧ pos ≤ 132) ∨ (reason = 5 ∧ pos = 133)

/-- What RX_STATUS can hold (R35, R231): nothing received since reset, a success, or a failure of R231's table; its
reserved bits are 0. -/
def statusLegal (v : Word16) : Prop :=
  statusReserved v = 0 ∧
  (v = 0 ∨
   (statusOk v = true ∧ statusReason v = 0 ∧ (statusPos v).toNat = 133) ∨
   (statusOk v = false ∧ stopsAt (statusReason v) (statusPos v).toNat))

/-- The invariant of the machine: RX_STATUS is legal, and a successful receive has left a frame (R31, R194). -/
def StateInv (s : State) : Prop := statusLegal s.rxStatus ∧ (statusOk s.rxStatus = true → s.frameW = true)

/-- A capture of a frame: its first 133 items have the kinds of the modulated frame and durations inside the windows
of their nominals; anything may follow (R197). -/
def captures (w : Window) (f : Frame) (e : Items) : Prop :=
  ∀ (k : Nat) (y : LineSymbol), (lineSymbols f)[k]? = some y → itemMatches w e k y.1 y.2 = true

/-- The item at index `k` passes the checks the demodulator makes of it (R194, R198). -/
def itemOk (w : Window) (e : Items) (k : Nat) : Prop :=
  match phaseAt k with
  | .header => itemMatches w e k (if k = 0 then .mark else .space) (if k = 0 then .headerMark else .headerSpace) = true
  | .data _ .mark => itemMatches w e k .mark .short = true
  | .data _ .space => itemMatches w e k .space .one = true ∨ itemMatches w e k .space .short = true
  | .footer => itemMatches w e k (if k = 130 then .mark else .space) (if k = 130 then .short else .gap) = true
  | .close => itemMatches w e k .mark .headerMark = true
  | .done => True

/-- The outcome a failed item of a phase is reported as (R194, R231). -/
def phaseReason : Phase → Reason
  | .header => .header
  | .data _ _ => .bit
  | .footer => .footer
  | .close => .footer
  | .done => .none

/-- The frame a capture's data spaces spell: bit `n` is 1 when its space is in the one-window (R194). -/
def spelledFrame (w : Window) (e : Items) : Frame :=
  Frame.ofBits ((List.range 64).map fun n => itemMatches w e (3 + 2 * n) .space .one)

/-- A frame with data bit `n` flipped (R176). -/
def flipBit (f : Frame) (n : Nat) : Frame :=
  match f.byte? (n / 8) with
  | some b => f.setByte (n / 8) (setBit b (n % 8) (!bitOf b (n % 8)))
  | none => f

/-- `g` is `f` at every index of the frame byte space but those listed. -/
def sameBytesBut (f g : Frame) (stored : List Nat) : Prop := ∀ a, a ∉ stored → g.byte? a = f.byte? a

/-- The logical states of R144: every field in the range its setter keeps as it is. -/
def logicalValid (ls : LogicalState) : Prop :=
  (ls.mode = 0x01 ∨ ls.mode = 0x02 ∨ ls.mode = 0x04) ∧
  (ls.fan = 0x01 ∨ ls.fan = 0x02 ∨ ls.fan = 0x03 ∨ ls.fan = 0x04 ∨ ls.fan = 0x08 ∨ ls.fan = 0x09) ∧
  (16 ≤ ls.temp ∧ ls.temp ≤ 30) ∧ (0 ≤ ls.hour ∧ ls.hour ≤ 23) ∧ (0 ≤ ls.minute ∧ ls.minute ≤ 59) ∧
  (0 ≤ ls.onH ∧ ls.onH ≤ 23) ∧ (0 ≤ ls.offH ∧ ls.offH ≤ 23)

/-- A decoded state reports a logical state, field by field, under recognized names (R144). -/
def reports (ls : LogicalState) (d : DecodedState) : Prop :=
  d.modeRaw.setWidth 8 = ls.mode ∧ d.mode ≠ .unrecognized ∧
  d.fanRaw.setWidth 8 = ls.fan ∧ d.fan ≠ .unrecognized ∧
  (d.temp : Int) = ls.temp ∧ (d.tempRaw : Int) = ls.temp ∧
  (d.hour : Int) = ls.hour ∧ (d.minute : Int) = ls.minute ∧
  (d.onH : Int) = ls.onH ∧ d.onHalf = ls.onHalf ∧ d.onAct = ls.onAct ∧
  (d.offH : Int) = ls.offH ∧ d.offHalf = ls.offHalf ∧ d.offAct = ls.offAct ∧
  d.swing = ls.swing ∧ d.sleep = ls.sleep ∧ d.powerToggle = ls.powerToggle

end Sys2Proof.Machine
end

