-- ==== Sys2Proof/Certificates/Slice0/Obligations.lean ====
section
/-! DEFINITION. The statements for the provers. Each docstring names the rule it formalises; OBLIGATIONS.json lists
them. "The spec's decision D<n>" is a row of spec/92_eei_decisions.md, a choice of the spec that its source does not
make; "log <n>" is a row of notes/assumptions. `exec` is the block's own effect of a command, which never stops
(R230): what a statement says of it holds whatever FRAME_W is (log 7). A step runs a command through `guardedExec`,
which faults where the command reads FRAME with FRAME_W = 0: that is the rules' "requires FRAME_W = 1" (R234), and it
rests on the spec's decision D7. No statement rests on the value `State.reset` gives the window or the bytes of FRAME. -/

open Sys2Proof Sys2Proof.Machine

/-! ## Reset, the command port and the step -/

/-- R43, R260: after reset FRAME is unwritten and RX_STATUS is 0x0000, every field of it 0. The values are the
spec's decisions D7 and D30. -/
def Obligations.ResetHoldsNoFrameAndZeroStatus : Prop :=
  State.reset.frameW = false ∧ State.reset.rxStatus = 0x0000 ∧
  statusOk State.reset.rxStatus = false ∧ statusReason State.reset.rxStatus = Reason.none.code ∧
  statusReserved State.reset.rxStatus = 0 ∧ statusPos State.reset.rxStatus = 0

/-- R260: a reset applied to the block gives every piece of state its reset value and does not change the window. The
values are the spec's decisions D7 and D30; that a reset arrives in the queue of inputs is the model's choice (log 3),
and so is what the bytes of FRAME hold then, which the spec leaves open (log 23). -/
def Obligations.ResetInputClearsStateAndKeepsWindow : Prop :=
  ∀ (s : State) (rest : List Input), s.pending = .reset :: rest →
    ∃ t, step s = .next t ∧ t.frameW = false ∧ t.frame = State.reset.frame ∧ t.rxStatus = 0x0000 ∧
      t.win = s.win ∧ t.pending = rest

/-- R69, R234, R235: a step takes the oldest command and runs what it decodes to, through the test of R234 (the spec's
decision D7), which any command that is safe to issue passes; a command the decoder refuses has no step; with nothing
issued nothing changes. The queue and the idle step are the model's choice (logs 1 and 2). -/
def Obligations.StepRunsTheDecodedCommand : Prop :=
  (∀ (s : State) (c : RawCommand) (rest : List Input) (i : Instr),
    s.pending = .command c :: rest → decode c = .ok i →
      step s = guardedExec i (s.setPending rest) ∧ (safeToIssue i s → step s = exec i (s.setPending rest))) ∧
  (∀ (s : State) (c : RawCommand) (rest : List Input) (why : DecodeError),
    s.pending = .command c :: rest → decode c = .error why → step s = .refused (.illegalCommand why)) ∧
  (∀ s : State, s.pending = [] → step s = .next s)

/-- R69: the inputs take effect in the order issued: a step that completes has taken exactly the oldest one. The queue
is the model's choice (log 1). -/
def Obligations.StepTakesTheOldestInput : Prop :=
  ∀ s t : State, step s = .next t → t.pending = s.pending.tail

/-- R101: the decoder accepts exactly the commands with an assigned selector and well-typed operands (the spec's
decision D35; the form of an operand on its port is the model's choice, log 4). -/
def Obligations.DecoderAcceptsExactlyWellFormedCommands : Prop :=
  ∀ c : RawCommand, (∃ i, decode c = .ok i) ↔ c.wellFormed = true

/-- R98 to R100: every command, at every value of its operands, is decoded from its own encoding. -/
def Obligations.DecodeOfEncodeIsTheCommand : Prop :=
  ∀ i : Instr, decode (encode i) = .ok i

/-- R98 to R100, R102: a command has one spelling on the command port: what decodes to it is its encoding. -/
def Obligations.EveryDecodedCommandHasOneSpelling : Prop :=
  ∀ (c : RawCommand) (i : Instr), decode c = .ok i → c = encode i

/-- R98 to R101: ten commands written out from the selector map, at least one of each of the nine formats (N twice; the
record of ENCODE in the order of R99, its bits and numbers told apart), and the refusals of section 2.12 of
spec/95_test_vectors.md. The selectors are the spec's decision D2; the form of the operands is the model's (log 4). -/
def Obligations.SelectorWordsDecodeAsTheMapSays : Prop :=
  decode ⟨0x01, []⟩ = .ok .frameInit ∧
  decode ⟨0x02, [.num 0x16, .num 0x12, .num 0, .num 0, .num 0, .num 0, .num 0x24, .num 0xFF]⟩ =
    .ok (.frameLoad 0x16 0x12 0 0 0 0 0x24 0xFF) ∧
  decode ⟨0x10, [.num 0xFF]⟩ = .ok (.setMode 0xFF) ∧
  decode ⟨0x14, [.num (-5)]⟩ = .ok (.setTemp (-5)) ∧
  decode ⟨0x16, [.num 12, .num 34]⟩ = .ok (.setTime 12 34) ∧
  decode ⟨0x18, [.num 7, .num 1, .num 0]⟩ = .ok (.setOnTimer 7 true false) ∧
  decode ⟨0x1C, [.num 1]⟩ = .ok (.setSwing true) ∧
  decode ⟨0x40, [.record [0x01, 0x08, 30, 23, 59, 7, 1, 0, 22, 0, 1, 1, 0, 1]]⟩ =
    .ok (.encode {
      mode := 0x01, fan := 0x08, temp := 30, hour := 23, minute := 59,
      onH := 7, onHalf := true, onAct := false, offH := 22, offHalf := false, offAct := true,
      swing := true, sleep := false, powerToggle := true }) ∧
  decode ⟨0x51, [.items [⟨.mark, 4652⟩]]⟩ = .ok (.demodulate [⟨.mark, 4652⟩]) ∧
  decode ⟨0x53, []⟩ = .ok .statusRead ∧
  decode ⟨0x00, []⟩ = .error .unassignedSelector ∧
  decode ⟨0x22, []⟩ = .error .unassignedSelector ∧
  decode ⟨0xFF, []⟩ = .error .unassignedSelector ∧
  decode ⟨0x1C, [.num 2]⟩ = .error .u1OutOfRange ∧
  decode ⟨0x10, [.num 0x1FF]⟩ = .error .u8OutOfRange

/-! ## Whole-frame access -/

/-- R120, R121: FRAME_INIT gives FRAME the fresh frame `16 00 00 00 00 00 00 00` and FRAME_LOAD its eight operands,
whatever FRAME held, and both change nothing else. The zero bytes of the fresh frame are the spec's decision D8, the
raw load its decision D34. -/
def Obligations.FrameInitAndFrameLoadReplaceTheFrame : Prop :=
  (∀ s : State, ∃ t, exec .frameInit s = .next t ∧
    t.frame = ⟨0x16, 0, 0, 0, 0, 0, 0, 0⟩ ∧ t.frameW = true ∧ sameButFrame s t) ∧
  (∀ (b0 b1 b2 b3 b4 b5 b6 b7 : Byte) (s : State), ∃ t, exec (.frameLoad b0 b1 b2 b3 b4 b5 b6 b7) s = .next t ∧
    t.frame = ⟨b0, b1, b2, b3, b4, b5, b6, b7⟩ ∧ t.frameW = true ∧ sameButFrame s t)

/-- R122: FRAME_READ answers the eight bytes and changes nothing; with FRAME_W = 0 a step faults (the
spec's decisions D34 and D7; log 7). -/
def Obligations.FrameReadAnswersTheFrame : Prop :=
  ∀ s : State,
    (s.frameW = false → guardedExec .frameRead s = .fault .frameUnwritten) ∧
    ∀ f, s.frame = f → ∃ t, exec .frameRead s = .next t ∧ t.result = .frame f ∧ sameButResult s t

/-! ## Setters -/

/-- R123: SET_MODE writes `FRAME[1][3:0]`: the code's low nibble for 0x01, 0x02 and 0x04, COOL (0x2) for every other
code; the fan nibble and every other byte, the checksum nibble's included, are kept; the rule's "requires FRAME_W = 1"
is the test a step makes of it (`guardedExec`), and that the block completes with FRAME_W = 0 as well is R230 (section
1 of 60_exceptions.md), read as log 7 has it (DEDUCED). -/
def Obligations.SetModeWritesTheModeNibble : Prop :=
  ∀ (code : Byte) (s : State),
    (s.frameW = false → guardedExec (.setMode code) s = .fault .frameUnwritten) ∧
    ∀ f, s.frame = f → ∃ t g, exec (.setMode code) s = .next t ∧ t.frame = g ∧
      lo g.b1 = (if code = 0x01 ∨ code = 0x02 ∨ code = 0x04 then lo code else 0x2) ∧
      hi g.b1 = hi f.b1 ∧ sameBytesBut f g [1] ∧ sameButBytes s t

/-- R125: SET_FAN writes `FRAME[1][7:4]`: the code's low nibble for the six fan codes, AUTO (0x1) for every other code;
the mode nibble and every other byte are kept. AUTO as the default is the spec's decision D5 (log 10). -/
def Obligations.SetFanWritesTheFanNibble : Prop :=
  ∀ (code : Byte) (s : State),
    (s.frameW = false → guardedExec (.setFan code) s = .fault .frameUnwritten) ∧
    ∀ f, s.frame = f → ∃ t g, exec (.setFan code) s = .next t ∧ t.frame = g ∧
      hi g.b1 = (if code = 0x01 ∨ code = 0x02 ∨ code = 0x03 ∨ code = 0x04 ∨ code = 0x08 ∨ code = 0x09
        then lo code else 0x1) ∧
      lo g.b1 = lo f.b1 ∧ sameBytesBut f g [1] ∧ sameButBytes s t

/-- R127: SET_TEMP writes byte 6, tens digit in the high nibble and ones digit in the low one, of the operand when it
lies in [16, 30] and of 24 otherwise; every other byte is kept; the rule's "requires FRAME_W = 1" is the test a step
makes of it (`guardedExec`), and that the block completes with FRAME_W = 0 as well is R230 (section 1 of
60_exceptions.md), read as log 7 has it (DEDUCED). -/
def Obligations.SetTempWritesBcdOrTwentyFour : Prop :=
  ∀ (a : Int) (s : State),
    (s.frameW = false → guardedExec (.setTemp a) s = .fault .frameUnwritten) ∧
    ∀ f, s.frame = f → ∃ t g v, exec (.setTemp a) s = .next t ∧ t.frame = g ∧
      (v : Int) = (if 16 ≤ a ∧ a ≤ 30 then a else 24) ∧
      ((hi g.b6).toNat : Int) = v / 10 ∧ ((lo g.b6).toNat : Int) = v % 10 ∧
      sameBytesBut f g [6] ∧ sameButBytes s t

/-- R129: SET_TIME writes the hour to byte 3 and the minute to byte 2, each in BCD, when both are in range, and 0 to
both otherwise; every other byte is kept. Negative inputs counting as out of range is the spec's decision D11
(log 13). -/
def Obligations.SetTimeWritesBothOrZeroesBoth : Prop :=
  ∀ (h m : Int) (s : State),
    (s.frameW = false → guardedExec (.setTime h m) s = .fault .frameUnwritten) ∧
    ∀ f, s.frame = f → ∃ t g, exec (.setTime h m) s = .next t ∧ t.frame = g ∧
      (0 ≤ h ∧ h ≤ 23 ∧ 0 ≤ m ∧ m ≤ 59 →
        ((hi g.b3).toNat : Int) = h / 10 ∧ ((lo g.b3).toNat : Int) = h % 10 ∧
        ((hi g.b2).toNat : Int) = m / 10 ∧ ((lo g.b2).toNat : Int) = m % 10) ∧
      (¬ (0 ≤ h ∧ h ≤ 23 ∧ 0 ≤ m ∧ m ≤ 59) → g.b3 = 0x00 ∧ g.b2 = 0x00) ∧
      sameBytesBut f g [2, 3] ∧ sameButBytes s t

/-- R131, R133, R92: SET_ON_TIMER writes byte 4 and SET_OFF_TIMER byte 5: active flag in bit 7, half-hour flag in bit
6, tens digit in bits 5:4, ones digit in bits 3:0; an hour outside [0, 23] is stored as 0 with the flags kept from the
operands (the spec's decision D12, log 14); every other byte is kept. -/
def Obligations.TimerSettersWriteTheirTimerByte : Prop :=
  ∀ (h : Int) (hf act : Bool) (s : State),
    (s.frameW = false → guardedExec (.setOnTimer h hf act) s = .fault .frameUnwritten ∧
      guardedExec (.setOffTimer h hf act) s = .fault .frameUnwritten) ∧
    ∀ f, s.frame = f →
      (∃ t g, exec (.setOnTimer h hf act) s = .next t ∧ t.frame = g ∧
        bitOf g.b4 7 = act ∧ bitOf g.b4 6 = hf ∧
        ((g.b4.extractLsb' 4 2).toNat : Int) = (if 0 ≤ h ∧ h ≤ 23 then h else 0) / 10 ∧
        ((lo g.b4).toNat : Int) = (if 0 ≤ h ∧ h ≤ 23 then h else 0) % 10 ∧
        sameBytesBut f g [4] ∧ sameButBytes s t) ∧
      (∃ t g, exec (.setOffTimer h hf act) s = .next t ∧ t.frame = g ∧
        bitOf g.b5 7 = act ∧ bitOf g.b5 6 = hf ∧
        ((g.b5.extractLsb' 4 2).toNat : Int) = (if 0 ≤ h ∧ h ≤ 23 then h else 0) / 10 ∧
        ((lo g.b5).toNat : Int) = (if 0 ≤ h ∧ h ≤ 23 then h else 0) % 10 ∧
        sameBytesBut f g [5] ∧ sameButBytes s t)

/-- R135, R137: SET_SWING writes bit 0 and SET_SLEEP bit 1 of byte 7 and keep its other bits, so the checksum nibble is
not updated: on a frame that passes IS_VALID, a write that changes the flag leaves a frame that fails it (the reading
R264 gives the rules' last sentence); both require FRAME_W = 1. -/
def Obligations.SwingAndSleepSettersWriteOneBit : Prop :=
  ∀ (v : Bool) (s : State),
    (s.frameW = false → guardedExec (.setSwing v) s = .fault .frameUnwritten ∧
      guardedExec (.setSleep v) s = .fault .frameUnwritten) ∧
    ∀ f, s.frame = f →
      (∃ t g, exec (.setSwing v) s = .next t ∧ t.frame = g ∧
        (∀ j < 8, bitOf g.b7 j = if j = 0 then v else bitOf f.b7 j) ∧
        (frameValid f = true → bitOf f.b7 0 ≠ v → frameValid g = false) ∧
        sameBytesBut f g [7] ∧ sameButBytes s t) ∧
      (∃ t g, exec (.setSleep v) s = .next t ∧ t.frame = g ∧
        (∀ j < 8, bitOf g.b7 j = if j = 1 then v else bitOf f.b7 j) ∧
        (frameValid f = true → bitOf f.b7 1 ≠ v → frameValid g = false) ∧
        sameBytesBut f g [7] ∧ sameButBytes s t)

/-- R139: SET_POWER_TOGGLE writes bit 3 of byte 7 and keeps its other bits and every other byte; that the block does
not clear the flag by itself (MODULATE leaves FRAME as it is) is the spec's decision D28. -/
def Obligations.PowerToggleSetterWritesBitThree : Prop :=
  ∀ (v : Bool) (s : State),
    (s.frameW = false → guardedExec (.setPowerToggle v) s = .fault .frameUnwritten) ∧
    ∀ f, s.frame = f → ∃ t u g, exec (.setPowerToggle v) s = .next t ∧ t.frame = g ∧
      (∀ j < 8, bitOf g.b7 j = if j = 3 then v else bitOf f.b7 j) ∧
      sameBytesBut f g [7] ∧ sameButBytes s t ∧
      exec .modulate t = .next u ∧ u.frame = g

/-! ## Getters -/

/-- R124, R126: GET_MODE and GET_FAN answer the nibble of byte 1 with its name in R89 and R90, UNRECOGNIZED for every
other nibble (the spec's decision D15), and change nothing. -/
def Obligations.ModeAndFanGettersAnswerNameAndNibble : Prop :=
  ∀ s : State,
    (s.frameW = false → guardedExec .getMode s = .fault .frameUnwritten ∧
      guardedExec .getFan s = .fault .frameUnwritten) ∧
    ∀ f, s.frame = f →
      (∃ t name, exec .getMode s = .next t ∧ t.result = .mode name (lo f.b1) ∧
        (name = .dry ↔ lo f.b1 = 0x1) ∧ (name = .cool ↔ lo f.b1 = 0x2) ∧ (name = .fan ↔ lo f.b1 = 0x4) ∧
        sameButResult s t) ∧
      (∃ t name, exec .getFan s = .next t ∧ t.result = .fan name (hi f.b1) ∧
        (name = .auto ↔ hi f.b1 = 0x1) ∧ (name = .turbo ↔ hi f.b1 = 0x3) ∧ (name = .speed3 ↔ hi f.b1 = 0x2) ∧
        (name = .speed2 ↔ hi f.b1 = 0x4) ∧ (name = .speed1 ↔ hi f.b1 = 0x8) ∧ (name = .quiet ↔ hi f.b1 = 0x9) ∧
        sameButResult s t)

/-- R128, R130: GET_TEMP answers the raw value of byte 6 and beside it that value, or 24 where it is outside [16, 30]
(the spec's decision D13, log 15); GET_TIME answers the raw values of bytes 3 and 2 (D14); both change nothing. -/
def Obligations.TempAndTimeGettersAnswerRawValues : Prop :=
  ∀ s : State,
    (s.frameW = false → guardedExec .getTemp s = .fault .frameUnwritten ∧
      guardedExec .getTime s = .fault .frameUnwritten) ∧
    ∀ f, s.frame = f →
      (∃ t v raw, exec .getTemp s = .next t ∧ t.result = .temp v raw ∧
        raw = 10 * (hi f.b6).toNat + (lo f.b6).toNat ∧ v = (if 16 ≤ raw ∧ raw ≤ 30 then raw else 24) ∧
        sameButResult s t) ∧
      (∃ t, exec .getTime s = .next t ∧
        t.result = .time (10 * (hi f.b3).toNat + (lo f.b3).toNat) (10 * (hi f.b2).toNat + (lo f.b2).toNat) ∧
        sameButResult s t)

/-- R132, R134: GET_ON_TIMER and GET_OFF_TIMER answer the hour digits, bit 6 and bit 7 of bytes 4 and 5, with no range
check (the spec's decision D14), and change nothing. -/
def Obligations.TimerGettersAnswerTheTimerByte : Prop :=
  ∀ s : State,
    (s.frameW = false → guardedExec .getOnTimer s = .fault .frameUnwritten ∧
      guardedExec .getOffTimer s = .fault .frameUnwritten) ∧
    ∀ f, s.frame = f →
      (∃ t, exec .getOnTimer s = .next t ∧
        t.result = .timer (f.b4.toNat / 16 % 4 * 10 + f.b4.toNat % 16) (f.b4.getLsbD 6) (f.b4.getLsbD 7) ∧
        sameButResult s t) ∧
      (∃ t, exec .getOffTimer s = .next t ∧
        t.result = .timer (f.b5.toNat / 16 % 4 * 10 + f.b5.toNat % 16) (f.b5.getLsbD 6) (f.b5.getLsbD 7) ∧
        sameButResult s t)

/-- R136, R138, R140: GET_SWING, GET_SLEEP and GET_POWER_TOGGLE answer bits 0, 1 and 3 of byte 7 and change nothing;
bit 2 of byte 7 is never reported: changing it changes no answer; each requires FRAME_W = 1. That no getter reports bit
2 is the spec's decision D9 (R88; log 12). -/
def Obligations.FlagGettersAnswerTheirBit : Prop :=
  ∀ s : State,
    (s.frameW = false → guardedExec .getSwing s = .fault .frameUnwritten ∧
      guardedExec .getSleep s = .fault .frameUnwritten ∧
      guardedExec .getPowerToggle s = .fault .frameUnwritten) ∧
    ∀ f, s.frame = f →
      (∃ t, exec .getSwing s = .next t ∧ t.result = .bit (f.b7.getLsbD 0) ∧ sameButResult s t) ∧
      (∃ t, exec .getSleep s = .next t ∧ t.result = .bit (f.b7.getLsbD 1) ∧ sameButResult s t) ∧
      (∃ t, exec .getPowerToggle s = .next t ∧ t.result = .bit (f.b7.getLsbD 3) ∧ sameButResult s t) ∧
      ∀ (v : Bool) (j : Instr) (X : Field) (t u : State), getterField j = some X → exec j s = .next t →
        exec j (s.setBytes { f with b7 := setBit f.b7 2 v }) = .next u → u.result = t.result

/-- R91: BCD assembly puts the tens digit in bits 7:4 and the ones digit in bits 3:0, disassembly reads the raw nibbles,
and disassembly undoes assembly on 0..99. -/
def Obligations.BcdDigitsAndRoundTrip : Prop :=
  (∀ v : Nat, v ≤ 99 → (hi (bcd8 v)).toNat = v / 10 ∧ (lo (bcd8 v)).toNat = v % 10 ∧ unbcd (bcd8 v) = v) ∧
  (∀ b : Byte, unbcd b = 10 * (b.toNat / 16) + b.toNat % 16)

/-- R92: timer byte assembly and disassembly, for an hour in 0..23; a disassembled hour is at most 45. -/
def Obligations.TimerByteFieldsAndRoundTrip : Prop :=
  (∀ (h : Nat) (hf a : Bool), h ≤ 23 →
    (timer8 h hf a).toNat = 128 * a.toNat + 64 * hf.toNat + 16 * (h / 10) + h % 10 ∧
    timerHour (timer8 h hf a) = h ∧ timerHalf (timer8 h hf a) = hf ∧ timerActive (timer8 h hf a) = a) ∧
  (∀ b : Byte, timerHour b = 10 * (b.toNat / 16 % 4) + b.toNat % 16 ∧ timerHour b ≤ 45 ∧
    timerHalf b = b.getLsbD 6 ∧ timerActive b = b.getLsbD 7)

/-! ## The laws of the field family -/

/-- R143: the bit sets of the setters and of FINALIZE are pairwise disjoint, and each writes inside its own. Derived in
the spec from the setters' rules. -/
def Obligations.SettersWriteOnlyTheirOwnBits : Prop :=
  (∀ (X Y : Field) (n : Nat), fieldHasBit X n = true → fieldHasBit Y n = true → X = Y) ∧
  (∀ (X : Field) (n : Nat), fieldHasBit X n = true → checksumHasBit n = false) ∧
  (∀ (i : Instr) (X : Field) (s : State) (f : Frame), setterField i = some X → s.frame = f →
    ∃ t g, exec i s = .next t ∧ t.frame = g ∧
      ∀ n < 64, fieldHasBit X n = false → g.dataBit n = f.dataBit n) ∧
  (∀ (s : State) (f : Frame), s.frame = f →
    ∃ t g, exec .finalize s = .next t ∧ t.frame = g ∧
      ∀ n < 64, checksumHasBit n = false → g.dataBit n = f.dataBit n)

/-- R143: two setters of different fields commute. Derived in the spec. -/
def Obligations.SettersOfDifferentFieldsCommute : Prop :=
  ∀ (i j : Instr) (X Y : Field) (s : State) (f : Frame),
    setterField i = some X → setterField j = some Y → X ≠ Y → s.frame = f →
    ∃ u v t, exec i s = .next u ∧ exec j u = .next t ∧ exec j s = .next v ∧ exec i v = .next t

/-- R143: of two setters of one field only the second value stays. Derived in the spec. -/
def Obligations.SecondSetterOfAFieldWins : Prop :=
  ∀ (i j : Instr) (X : Field) (s : State) (f : Frame),
    setterField i = some X → setterField j = some X → s.frame = f →
    ∃ u t, exec i s = .next u ∧ exec j u = .next t ∧ exec j s = .next t

/-- R143: a getter's answer is unaffected by a setter of another field. Derived in the spec. -/
def Obligations.GetterIsUnaffectedByOtherSetters : Prop :=
  ∀ (i j : Instr) (X Y : Field) (s : State) (f : Frame),
    setterField i = some X → getterField j = some Y → X ≠ Y → s.frame = f →
    ∃ u t v, exec i s = .next u ∧ exec j u = .next t ∧ exec j s = .next v ∧ t.result = v.result

/-! ## Checksum -/

/-- R170, R171: the nibbles, and the checksum as the 15-term sum of eight low and seven high nibbles mod 16; the sum is
at most 225; the checksum nibble itself is no term. -/
def Obligations.ChecksumIsTheFifteenTermSum : Prop :=
  (∀ b : Byte, (lo b).toNat = b.toNat % 16 ∧ (hi b).toNat = b.toNat / 16) ∧
  (∀ f : Frame,
    let sum := (f.bytes.map fun b => (lo b).toNat).sum + ((f.bytes.take 7).map fun b => (hi b).toNat).sum
    (cs f).toNat = sum % 16 ∧ sum ≤ 225) ∧
  (∀ (f : Frame) (v : Nibble), cs { f with b7 := setHi f.b7 v } = cs f)

/-- R172: CHECKSUM answers the checksum, changes nothing, and answers the same before and after FINALIZE. CHECKSUM as a
command is the spec's decision D2. -/
def Obligations.ChecksumCommandAnswersTheChecksum : Prop :=
  ∀ s : State,
    (s.frameW = false → guardedExec .checksum s = .fault .frameUnwritten) ∧
    ∀ f, s.frame = f → ∃ t u v, exec .checksum s = .next t ∧ t.result = .nibble (cs f) ∧ sameButResult s t ∧
      exec .finalize s = .next u ∧ exec .checksum u = .next v ∧ v.result = .nibble (cs f)

/-- R173: FINALIZE writes the checksum to `FRAME[7][7:4]`, keeps bits 3:0 of byte 7 and every other byte, byte 0
included, and twice is the same as once; the rule's "requires FRAME_W = 1" is the test a step makes of it
(`guardedExec`), and that the block completes with FRAME_W = 0 as well is R230 (section 1 of 60_exceptions.md), read
as log 7 has it (DEDUCED). -/
def Obligations.FinalizeWritesTheChecksumNibble : Prop :=
  ∀ s : State,
    (s.frameW = false → guardedExec .finalize s = .fault .frameUnwritten) ∧
    ∀ f, s.frame = f → ∃ t g, exec .finalize s = .next t ∧ t.frame = g ∧
      hi g.b7 = cs f ∧ lo g.b7 = lo f.b7 ∧ sameBytesBut f g [7] ∧ sameButBytes s t ∧
      (f.b0 ≠ 0x16 → frameValid g = false) ∧ exec .finalize t = .next t

/-- R174: IS_VALID answers 1 iff byte 0 is 0x16 and the checksum nibble is the checksum; no other field is checked,
and nothing changes; the rule's "requires FRAME_W = 1" is the test a step makes of it (`guardedExec`), and that the
block completes with FRAME_W = 0 as well is R230 (section 1 of 60_exceptions.md), read as log 7 has it (DEDUCED). -/
def Obligations.IsValidTestsHeaderAndChecksumOnly : Prop :=
  ∀ s : State,
    (s.frameW = false → guardedExec .isValid s = .fault .frameUnwritten) ∧
    ∀ f, s.frame = f → ∃ t v, exec .isValid s = .next t ∧ t.result = .bit v ∧
      (v = true ↔ f.b0 = 0x16 ∧ hi f.b7 = cs f) ∧ sameButResult s t

/-- R175: after FINALIZE, IS_VALID is 1 iff byte 0 is 0x16. Derived in the spec. -/
def Obligations.FinalizedFrameIsValidIffHeaderIsRight : Prop :=
  ∀ (s : State) (f : Frame), s.frame = f →
    ∃ t u v, exec .finalize s = .next t ∧ exec .isValid t = .next u ∧ u.result = .bit v ∧ (v = true ↔ f.b0 = 0x16)

/-- R176: any change to exactly one bit of a finalized frame makes IS_VALID 0. Derived in the spec. -/
def Obligations.EverySingleBitErrorIsDetected : Prop :=
  ∀ (f : Frame) (n : Nat) (s : State), n < 64 → hi f.b7 = cs f → s.frame = flipBit f n →
    flipBit f n ≠ f ∧ ∃ t, exec .isValid s = .next t ∧ t.result = .bit false

/-- R176: changes to several bits can go undetected: the two frames the spec names are both valid. -/
def Obligations.SeveralBitErrorsCanCancel : Prop :=
  frameValid ⟨0x16, 0x12, 0x00, 0x00, 0x00, 0x00, 0x24, 0x00⟩ = true ∧
  frameValid ⟨0x16, 0x12, 0x01, 0x00, 0x00, 0x00, 0x23, 0x00⟩ = true

/-- R264 where it holds: the setters whose field is one nibble or one bit, when they change a valid frame, leave a frame
that fails IS_VALID. Derived in the spec; log 20 says why only these. -/
def Obligations.NarrowSettersMakeTheChecksumStale : Prop :=
  ∀ (i : Instr) (X : Field) (s : State) (f : Frame),
    setterField i = some X → X ≠ .temp → X ≠ .time → X ≠ .onTimer → X ≠ .offTimer →
    s.frame = f → frameValid f = true →
    ∃ t g, exec i s = .next t ∧ t.frame = g ∧ (g ≠ f → frameValid g = false)

/-- R264 where it does not hold as written: a setter of a whole byte can change a valid frame and leave it valid. The
model's observation (log 20), following R176. -/
def Obligations.AWideSetterCanKeepTheChecksumRight : Prop :=
  ∃ (s t : State) (f g : Frame) (a : Int), s.frame = f ∧ frameValid f = true ∧
    exec (.setTemp a) s = .next t ∧ t.frame = g ∧ g ≠ f ∧ frameValid g = true

/-! ## ENCODE and DECODE -/

/-- R141: ENCODE builds the closed form of the rule, in any state, finalized and valid, and changes nothing else. The
defaults it substitutes are those of the setters (the spec's decisions D5, D9, D11, D12 among them). -/
def Obligations.EncodeBuildsTheClosedForm : Prop :=
  ∀ (ls : LogicalState) (s : State), ∃ t g, exec (.encode ls) s = .next t ∧ t.frame = g ∧ t.frameW = true ∧
    g.b0 = 0x16 ∧ hi g.b1 = fanOrDefault ls.fan ∧ lo g.b1 = modeOrDefault ls.mode ∧
    g.b2 = bcd8 (timeOrZero ls.hour ls.minute).2 ∧ g.b3 = bcd8 (timeOrZero ls.hour ls.minute).1 ∧
    g.b4 = timer8 (timerHourOrZero ls.onH) ls.onHalf ls.onAct ∧
    g.b5 = timer8 (timerHourOrZero ls.offH) ls.offHalf ls.offAct ∧
    g.b6 = bcd8 (tempOrDefault ls.temp) ∧
    hi g.b7 = cs g ∧ bitOf g.b7 3 = ls.powerToggle ∧ bitOf g.b7 2 = false ∧ bitOf g.b7 1 = ls.sleep ∧
    bitOf g.b7 0 = ls.swing ∧ frameValid g = true ∧ sameButFrame s t

/-- R142: DECODE answers what every getter answers, and changes nothing; it validates nothing (the spec's decision
D23). -/
def Obligations.DecodeAnswersWhatTheGettersAnswer : Prop :=
  ∀ s : State,
    (s.frameW = false → guardedExec .decode s = .fault .frameUnwritten) ∧
    ∀ f, s.frame = f → ∃ t d, exec .decode s = .next t ∧ t.result = .decoded d ∧ sameButResult s t ∧
      exec .getMode s = .next (s.answer (.mode d.mode d.modeRaw)) ∧
      exec .getFan s = .next (s.answer (.fan d.fan d.fanRaw)) ∧
      exec .getTemp s = .next (s.answer (.temp d.temp d.tempRaw)) ∧
      exec .getTime s = .next (s.answer (.time d.hour d.minute)) ∧
      exec .getOnTimer s = .next (s.answer (.timer d.onH d.onHalf d.onAct)) ∧
      exec .getOffTimer s = .next (s.answer (.timer d.offH d.offHalf d.offAct)) ∧
      exec .getSwing s = .next (s.answer (.bit d.swing)) ∧
      exec .getSleep s = .next (s.answer (.bit d.sleep)) ∧
      exec .getPowerToggle s = .next (s.answer (.bit d.powerToggle))

/-- R144, first half: after ENCODE of a valid logical state, DECODE reports it and IS_VALID answers 1. Derived in the
spec. -/
def Obligations.DecodeOfEncodeReportsTheLogicalState : Prop :=
  ∀ (ls : LogicalState) (s : State), logicalValid ls →
    ∃ t u v d, exec (.encode ls) s = .next t ∧ exec .decode t = .next u ∧ u.result = .decoded d ∧ reports ls d ∧
      exec .isValid t = .next v ∧ v.result = .bit true

/-- R144, second half, and R3: ENCODE, MODULATE, RECEIVE of the items sent, DECODE: the logical state comes back.
Derived in the spec; under W1 and W2, as R197 has it (log 21). -/
def Obligations.LogicalStateSurvivesTheLine : Prop :=
  ∀ (ls : LogicalState) (s : State), logicalValid ls → windowW1 s.win → windowW2 s.win →
    ∃ t u v w e d, exec (.encode ls) s = .next t ∧
      exec .modulate t = .next u ∧ u.result = .transmit e 38000 ∧
      exec (.receive e) u = .next v ∧ v.frame = t.frame ∧ v.frameW = true ∧
      statusOk v.rxStatus = true ∧ statusReason v.rxStatus = 0 ∧ statusPos v.rxStatus = 133 ∧
      exec .decode v = .next w ∧ w.result = .decoded d ∧ reports ls d

/-! ## The line -/

/-- R62, R95, R96, R97, R193: MODULATE answers 133 items at 38000 Hz: header, for each data bit `n` a 368 us mark and a
space of 944 us or 368 us as `FRAME[n div 8][n mod 8]` is 1 or 0, footer, closing mark; it changes nothing. The form of
the items is the spec's decision D16. -/
def Obligations.ModulateLaysOutTheLine : Prop :=
  ∀ s : State,
    (s.frameW = false → guardedExec .modulate s = .fault .frameUnwritten) ∧
    ∀ f, s.frame = f → ∃ t e, exec .modulate s = .next t ∧ t.result = .transmit e 38000 ∧ sameButResult s t ∧
      e.length = 133 ∧ e[0]? = some ⟨.mark, 4652⟩ ∧ e[1]? = some ⟨.space, 2408⟩ ∧
      (∀ n < 64, e[2 + 2 * n]? = some ⟨.mark, 368⟩ ∧
        ∃ b, f.byte? (n / 8) = some b ∧
          e[3 + 2 * n]? = some ⟨.space, if b.getLsbD (n % 8) then 944 else 368⟩) ∧
      e[130]? = some ⟨.mark, 368⟩ ∧ e[131]? = some ⟨.space, 20340⟩ ∧ e[132]? = some ⟨.mark, 4652⟩

/-- R199: the items of a transmission take 79524 us and 576 us more for each bit that is 1; between 79524 and
116388 us. Derived in the spec. -/
def Obligations.TransmissionLengthCountsTheOnes : Prop :=
  ∀ (s : State) (f : Frame), s.frame = f →
    ∃ t e, exec .modulate s = .next t ∧ t.result = .transmit e 38000 ∧
      itemsDuration e = 79524 + 576 * f.bits.count true ∧ 79524 ≤ itemsDuration e ∧ itemsDuration e ≤ 116388

/-- R194, R231, R232: DEMODULATE always completes. On success FRAME is the frame read, FRAME_W is 1 and RX_STATUS is OK,
NONE, 133; on failure FRAME is as before and RX_STATUS holds the outcome code and the position, inside the table of
R231. Codes, layout and the unchanged FRAME are the spec's decisions D25 and D24 (log 18). -/
def Obligations.DemodulateWritesFrameOnSuccessOnly : Prop :=
  ∀ (e : Items) (s : State), ∃ t, exec (.demodulate e) s = .next t ∧ t.pending = s.pending ∧ t.win = s.win ∧
    t.result = .demodulated (demod s.win e) ∧ statusReserved t.rxStatus = 0 ∧
    (∀ g p, demod s.win e = .ok (g, p) → p = 133 ∧ t.frame = g ∧ t.frameW = true ∧
      statusOk t.rxStatus = true ∧ statusReason t.rxStatus = 0 ∧ (statusPos t.rxStatus).toNat = 133) ∧
    (∀ x, demod s.win e = .error x → t.frame = s.frame ∧ t.frameW = s.frameW ∧
      statusOk t.rxStatus = false ∧ statusReason t.rxStatus = x.reason.code ∧
      (statusPos t.rxStatus).toNat = x.pos ∧ stopsAt x.reason.code x.pos ∧ x.reason ≠ .headerByte)

/-- R195: RECEIVE always completes: as DEMODULATE, and a frame whose byte 0 is not 0x16 fails HEADER_BYTE at 133 with
FRAME as before; after a success IS_VALID is 1. The header test in RECEIVE alone is the spec's decision D23. -/
def Obligations.ReceiveAlsoTestsTheHeaderByte : Prop :=
  ∀ (e : Items) (s : State), ∃ t, exec (.receive e) s = .next t ∧ t.pending = s.pending ∧ t.win = s.win ∧
    statusReserved t.rxStatus = 0 ∧
    (∀ g p, demod s.win e = .ok (g, p) → g.b0 = 0x16 → t.frame = g ∧ t.frameW = true ∧ t.result = .received (some g) ∧
      statusOk t.rxStatus = true ∧ statusReason t.rxStatus = 0 ∧ (statusPos t.rxStatus).toNat = 133 ∧
      ∃ u, exec .isValid t = .next u ∧ u.result = .bit true) ∧
    (∀ g p, demod s.win e = .ok (g, p) → g.b0 ≠ 0x16 → t.frame = s.frame ∧ t.frameW = s.frameW ∧ t.result = .received none ∧
      statusOk t.rxStatus = false ∧ statusReason t.rxStatus = 5 ∧ (statusPos t.rxStatus).toNat = 133) ∧
    (∀ x, demod s.win e = .error x → t.frame = s.frame ∧ t.frameW = s.frameW ∧ t.result = .received none ∧
      statusOk t.rxStatus = false ∧ statusReason t.rxStatus = x.reason.code ∧ (statusPos t.rxStatus).toNat = x.pos)

/-- R198, R194: demodulation accepts exactly the captures of at least 133 items whose items pass the checks of their
indices and whose data spaces spell a frame with a correct checksum, and it gives that frame. Derived in the spec. -/
def Obligations.DemodulateAcceptsExactlyTheSoundCaptures : Prop :=
  ∀ (e : Items) (s : State), ∃ t, exec (.demodulate e) s = .next t ∧
    (statusOk t.rxStatus = true ↔
      133 ≤ e.length ∧ (∀ k < 133, itemOk s.win e k) ∧
      hi (spelledFrame s.win e).b7 = cs (spelledFrame s.win e)) ∧
    (statusOk t.rxStatus = true → t.frame = spelledFrame s.win e ∧ t.frameW = true)

/-- R233, R200: a failed demodulation reports the first check to fail: every item before the position passes, and the
check there, of the checksum or of the item, fails, under the reason of its phase. The code chosen is the spec's
decision D26. -/
def Obligations.TheFirstFailingCheckIsReported : Prop :=
  ∀ (w : Window) (e : Items) (x : RxFailure), demod w e = .error x →
    (∀ k < x.pos, itemOk w e k) ∧
    ((x = ⟨.checksum, 130⟩ ∧ hi (spelledFrame w e).b7 ≠ cs (spelledFrame w e)) ∨
     (x.pos < 133 ∧ ¬ itemOk w e x.pos ∧ x.reason = phaseReason (phaseAt x.pos) ∧
      (130 ≤ x.pos → hi (spelledFrame w e).b7 = cs (spelledFrame w e))))

/-- R197: every capture of a frame, exact, distorted inside the windows, or with further items after it, demodulates to
that frame when its checksum is right and fails CHECKSUM at 130 otherwise; and what MODULATE sends, with anything after
it, is such a capture. Derived in the spec; under W1 and W2. That items after the closing mark are ignored is the spec's
decision D21 (log 16). -/
def Obligations.LineRoundTripForEveryCapture : Prop :=
  (∀ (w : Window) (f : Frame) (more : Items), windowW1 w → captures w f (modulateFrame f ++ more)) ∧
  (∀ (f : Frame) (e : Items) (s : State), windowW1 s.win → windowW2 s.win → captures s.win f e →
    ∃ t, exec (.demodulate e) s = .next t ∧
      (hi f.b7 = cs f → t.result = .demodulated (.ok (f, 133)) ∧ t.frame = f ∧ t.frameW = true) ∧
      (hi f.b7 ≠ cs f → t.result = .demodulated (.error ⟨.checksum, 130⟩) ∧ t.frame = s.frame ∧
        t.frameW = s.frameW))

/-- R194: a capture cut short after `m` items that all match fails at `m` with the reason of the element expected there;
from 130 on the checksum is judged first. The outcome codes are the spec's decisions D20 and D25. -/
def Obligations.ACaptureCutShortFailsWhereItEnds : Prop :=
  ∀ (f : Frame) (e : Items) (m : Nat) (s : State), windowW2 s.win → captures s.win f e → m < 133 →
    ∃ t, exec (.demodulate (e.take m)) s = .next t ∧ t.frame = s.frame ∧ t.frameW = s.frameW ∧
      (m < 130 → t.result = .demodulated (.error ⟨phaseReason (phaseAt m), m⟩)) ∧
      (130 ≤ m → hi f.b7 = cs f → t.result = .demodulated (.error ⟨.footer, m⟩)) ∧
      (130 ≤ m → hi f.b7 ≠ cs f → t.result = .demodulated (.error ⟨.checksum, 130⟩))

/-- R144 names W1 alone; W1 alone is not enough: there is a window with W1, without W2, for which the frame of a valid
logical state does not come back. The model's observation (log 21), following R197. -/
def Obligations.TheRoundTripNeedsMoreThanW1 : Prop :=
  ∃ (s t u v : State) (ls : LogicalState) (e : Items), windowW1 s.win ∧ logicalValid ls ∧
    exec (.encode ls) s = .next t ∧ exec .modulate t = .next u ∧ u.result = .transmit e 38000 ∧
    exec (.receive e) u = .next v ∧ statusOk v.rxStatus = false

/-- R196: STATUS_READ answers the fields of RX_STATUS with its reserved bits 0, in every state, and changes nothing;
under the invariant that is RX_STATUS as it stands. The layout is the spec's decision D25. -/
def Obligations.StatusReadAnswersTheStatusFields : Prop :=
  ∀ s : State, ∃ t v, exec .statusRead s = .next t ∧ t.result = .status v ∧ sameButResult s t ∧
    statusOk v = statusOk s.rxStatus ∧ statusReason v = statusReason s.rxStatus ∧ statusReserved v = 0 ∧
    statusPos v = statusPos s.rxStatus ∧ (StateInv s → v = s.rxStatus)

/-- R190, R191: under the default formula W2 holds exactly up to 43 percent, and the instance at 25 percent has the
windows of the table and meets W1, W2 and W3. The formula is the spec's, from general knowledge (D17, log 8). -/
def Obligations.ToleranceWindowsMeetTheConstraints : Prop :=
  (∀ tol : Nat, windowW2 (windowOfTolerance tol) ↔ tol ≤ 43) ∧
  windowOfTolerance 25 = ⟨⟨276, 460⟩, ⟨708, 1180⟩, ⟨1806, 3010⟩, ⟨3489, 5815⟩, ⟨15255, 25425⟩⟩ ∧
  windowValid (windowOfTolerance 25)

/-! ## Rules of the whole machine -/

/-- R231, R35, R31: the invariant of the machine is kept by every step, a reset included: RX_STATUS holds nothing, a
success at 133, or a failure of the table of R231, its reserved bits are 0, and a success has left a frame. -/
def Obligations.EveryStepKeepsTheInvariant : Prop :=
  ∀ s t : State, StateInv s → step s = .next t → StateInv t

/-- R43: the invariant holds after reset. -/
def Obligations.TheInvariantHoldsAtReset : Prop := StateInv State.reset

/-- R35, R36: only DEMODULATE and RECEIVE write RX_STATUS. The register is the spec's decision D25. -/
def Obligations.OnlyReceivesWriteTheStatus : Prop :=
  ∀ (i : Instr) (s t : State), exec i s = .next t → t.rxStatus ≠ s.rxStatus →
    (∃ e, i = .demodulate e) ∨ (∃ e, i = .receive e)

/-- R230, R238, R270: no command traps or halts: every command completes in every state, keeps the window and what is
waiting; and so it does in a step, when it is safe to issue (R262). -/
def Obligations.EveryCommandCompletesInEveryState : Prop :=
  (∀ (i : Instr) (s : State), ∃ t, exec i s = .next t ∧ t.win = s.win ∧ t.pending = s.pending) ∧
  (∀ (i : Instr) (s : State), safeToIssue i s →
    ∃ t, guardedExec i s = .next t ∧ t.win = s.win ∧ t.pending = s.pending)

/-- R234: a step faults exactly where the oldest input is a command that reads FRAME while FRAME_W = 0, the six commands
the rule names never; otherwise the command has its own effect. The fault makes no change to the state, ends the model's
run and is kept for the whole run (the spec's decision D7); that a refusal ends a run as well is the model's choice
(log 24). -/
def Obligations.FrameUnwrittenFaultsExactlyTheReaders : Prop :=
  (∀ (i : Instr) (s : State), guardedExec i s = .fault .frameUnwritten ↔ needsFrame i = true ∧ s.frameW = false) ∧
  (∀ (i : Instr) (s : State), safeToIssue i s → guardedExec i s = exec i s) ∧
  (∀ (s : State) (f : Fault), step s = .fault f ↔ f = .frameUnwritten ∧ s.frameW = false ∧
    ∃ c rest i, s.pending = .command c :: rest ∧ decode c = .ok i ∧ needsFrame i = true) ∧
  (∀ (s : State) (n : Nat),
    ∃ k ≤ n, Host.Core.run core k s = .next (modelRun s n).state ∧
      ((modelRun s n).ended = none → k = n) ∧
      (∀ f, (modelRun s n).ended = some (.fault f) →
        step (modelRun s n).state = .fault f ∧ Host.Core.run core n s = .fault f) ∧
      ((modelRun s n).ended ≠ none → ∀ m, n ≤ m → modelRun s m = modelRun s n)) ∧
  (∀ i : Instr, needsFrame i = false ↔
    i = .frameInit ∨ (∃ b0 b1 b2 b3 b4 b5 b6 b7, i = .frameLoad b0 b1 b2 b3 b4 b5 b6 b7) ∨ (∃ ls, i = .encode ls) ∨
    (∃ e, i = .demodulate e) ∨ (∃ e, i = .receive e) ∨ i = .statusRead)

/-- R31: FRAME_W becomes 1 only by FRAME_INIT, FRAME_LOAD, ENCODE or a successful receive, and only a reset clears it
(the spec's decision D7). -/
def Obligations.FrameWrittenIsClearedByResetOnly : Prop :=
  (∀ (i : Instr) (s t : State), exec i s = .next t → s.frameW = false → t.frameW = true →
    i = .frameInit ∨ (∃ b0 b1 b2 b3 b4 b5 b6 b7, i = .frameLoad b0 b1 b2 b3 b4 b5 b6 b7) ∨ (∃ ls, i = .encode ls) ∨
    ((∃ e, i = .demodulate e ∨ i = .receive e) ∧ statusOk t.rxStatus = true)) ∧
  (∀ s t : State, step s = .next t → s.frameW = true → t.frameW = false → s.pending.head? = some .reset)

/-- R68: the reading commands change no state, and repeating one gives the same answer. -/
def Obligations.ReadingCommandsChangeNothing : Prop :=
  ∀ (i : Instr) (s : State), readsOnly i = true →
    ∃ t, exec i s = .next t ∧ sameButResult s t ∧ exec i t = .next t

/-- R40, R260: the window is fixed: no step changes it. The window is the spec's decision D17. -/
def Obligations.NoStepChangesTheWindow : Prop :=
  ∀ s t : State, step s = .next t → t.win = s.win

/-- R41: nothing survives a command but FRAME, FRAME_W and RX_STATUS: what a command does and answers depends on them,
the window and its operands alone. R31: while FRAME_W = 0 the frame holds no value: two steps that differ only in the
bytes of an unwritten FRAME do and answer the same (the spec's decision D7; log 7). -/
def Obligations.NoHiddenStateSurvivesACommand : Prop :=
  (∀ (i : Instr) (s s' t : State), s.frame = s'.frame → s.frameW = s'.frameW → s.rxStatus = s'.rxStatus →
    s.win = s'.win → exec i s = .next t →
    ∃ t', exec i s' = .next t' ∧ t'.frame = t.frame ∧ t'.frameW = t.frameW ∧ t'.rxStatus = t.rxStatus ∧
      t'.result = t.result) ∧
  (∀ (s t : State) (f : Frame), s.frameW = false → step s = .next t →
    ∃ t', step (s.setBytes f) = .next t' ∧ t'.frameW = t.frameW ∧ t'.rxStatus = t.rxStatus ∧
      t'.result = t.result ∧ t'.pending = t.pending ∧ t'.win = t.win ∧ (t.frameW = true → t'.frame = t.frame))
end

