-- ==== Sys2Proof/Laws/Bits.lean ====
section
/-! SUPPORT. The laws of nibbles and single bits of a byte. -/

namespace Sys2Proof.Machine

@[simp] theorem lo_nibbles (h l : Nibble) : lo (nibbles h l) = l := by
  apply BitVec.eq_of_getLsbD_eq; intro i hi
  simp only [lo, nibbles, BitVec.getLsbD_append, BitVec.getLsbD_extractLsb']
  simp [hi]

@[simp] theorem hi_nibbles (h l : Nibble) : hi (nibbles h l) = h := by
  apply BitVec.eq_of_getLsbD_eq; intro i hi
  simp only [Machine.hi, nibbles, BitVec.getLsbD_append, BitVec.getLsbD_extractLsb']
  simp [hi]

/-- A byte is its two nibbles. -/
theorem nibbles_hi_lo (b : Byte) : nibbles (hi b) (lo b) = b := by
  revert b; decide

/-- Bytes with equal nibbles are equal. -/
theorem byte_ext {a b : Byte} (hh : hi a = hi b) (hl : lo a = lo b) : a = b := by
  rw [← nibbles_hi_lo a, ← nibbles_hi_lo b, hh, hl]

@[simp] theorem lo_setLo (b : Byte) (v : Nibble) : lo (setLo b v) = v := lo_nibbles _ _
@[simp] theorem hi_setLo (b : Byte) (v : Nibble) : hi (setLo b v) = hi b := hi_nibbles _ _
@[simp] theorem lo_setHi (b : Byte) (v : Nibble) : lo (setHi b v) = lo b := lo_nibbles _ _
@[simp] theorem hi_setHi (b : Byte) (v : Nibble) : hi (setHi b v) = v := hi_nibbles _ _

/-- The low bits of `{h, l}` are those of `l`. -/
theorem bitOf_nibbles_low (h l : Nibble) {j : Nat} (hj : j < 4) : bitOf (nibbles h l) j = l.getLsbD j := by
  simp only [bitOf, nibbles, BitVec.getLsbD_append, hj, if_true]

/-- The high bits of `{h, l}` are those of `h`. -/
theorem bitOf_nibbles_high (h l : Nibble) {j : Nat} (hj : 4 ≤ j) : bitOf (nibbles h l) j = h.getLsbD (j - 4) := by
  simp only [bitOf, nibbles, BitVec.getLsbD_append, show ¬ j < 4 by omega, if_false]

/-- A write of one bit, read back at any bit. -/
theorem bitOf_setBit (b : Byte) (i j : Nat) (v : Bool) (hj : j < 8) :
    bitOf (setBit b j v) i = if i = j then v else bitOf b i := by
  by_cases hi : i < 8
  · interval_cases i <;> interval_cases j <;> cases v <;> revert b <;> decide
  · have h1 : bitOf (setBit b j v) i = false := BitVec.getLsbD_of_ge _ _ (by omega)
    have h2 : bitOf b i = false := BitVec.getLsbD_of_ge _ _ (by omega)
    rw [h1, h2, if_neg (by omega)]

/-- Bytes with equal bits are equal. -/
theorem byte_ext_bits {a b : Byte} (h : ∀ j < 8, bitOf a j = bitOf b j) : a = b :=
  BitVec.eq_of_getLsbD_eq h

theorem bitOf_byteOfBits (p : Nat → Bool) {j : Nat} (hj : j < 8) : bitOf (byteOfBits p) j = p j := by
  simp only [bitOf, byteOfBits, BitVec.getLsbD_append, BitVec.getLsbD_ofBool]
  interval_cases j <;> simp

/-- A byte is the byte of its bits. -/
theorem byteOfBits_bitOf (b : Byte) : byteOfBits (bitOf b) = b :=
  byte_ext_bits fun _ hj => bitOf_byteOfBits _ hj

@[simp] theorem byteBits_length (b : Byte) : (byteBits b).length = 8 := rfl

theorem byteBits_getElem? (b : Byte) {j : Nat} (hj : j < 8) : (byteBits b)[j]? = some (bitOf b j) := by
  interval_cases j <;> rfl

theorem bitOf_setLo (b : Byte) (v : Nibble) {j : Nat} (hj : 4 ≤ j) : bitOf (setLo b v) j = bitOf b j := by
  rw [setLo, bitOf_nibbles_high _ _ hj, ← bitOf_nibbles_high (hi b) (lo b) hj, nibbles_hi_lo]

theorem bitOf_setHi (b : Byte) (v : Nibble) {j : Nat} (hj : j < 4) : bitOf (setHi b v) j = bitOf b j := by
  rw [setHi, bitOf_nibbles_low _ _ hj, ← bitOf_nibbles_low (hi b) (lo b) hj, nibbles_hi_lo]

/-- A write of a low bit keeps the high nibble. -/
theorem hi_setBit (b : Byte) {j : Nat} (v : Bool) (h : j < 4) : hi (setBit b j v) = hi b := by
  apply BitVec.eq_of_getLsbD_eq
  intro i hi
  have := bitOf_setBit b (4 + i) j v (by omega)
  simpa [Machine.hi, bitOf, hi, show ¬ 4 + i = j by omega] using this

theorem setBit_setBit (b : Byte) {j : Nat} (v w : Bool) (hj : j < 8) :
    setBit (setBit b j v) j w = setBit b j w :=
  byte_ext_bits fun i _ => by simp only [bitOf_setBit _ _ _ _ hj]; split_ifs <;> rfl

theorem setBit_comm (b : Byte) {j k : Nat} (v w : Bool) (hj : j < 8) (hk : k < 8) (h : j ≠ k) :
    setBit (setBit b j v) k w = setBit (setBit b k w) j v :=
  byte_ext_bits fun i _ => by
    simp only [bitOf_setBit _ _ _ _ hj, bitOf_setBit _ _ _ _ hk]; split_ifs <;> first | rfl | omega

end Sys2Proof.Machine
end

