-- ==== Sys2Proof/Laws/Operands.lean ====
section
/-! SUPPORT. The nibbles, fields and defaults of the operand forms (R89 to R92), in arithmetic. -/

namespace Sys2Proof.Machine

theorem lo_toNat (b : Byte) : (lo b).toNat = b.toNat % 16 := by simp [lo]

theorem hi_toNat (b : Byte) : (hi b).toNat = b.toNat / 16 := by
  have := b.isLt
  simp [hi, Nat.shiftRight_eq_div_pow]
  omega

theorem hi_bcd8 {v : Nat} (h : v ≤ 99) : (hi (bcd8 v)).toNat = v / 10 := by
  rw [bcd8, hi_nibbles, BitVec.toNat_ofNat]
  omega

theorem lo_bcd8 (v : Nat) : (lo (bcd8 v)).toNat = v % 10 := by
  rw [bcd8, lo_nibbles, BitVec.toNat_ofNat]
  omega

/-- Each bit of a timer byte: ones digit, tens digit, half-hour, active, from bit 0 up. -/
theorem getLsbD_timer8 (h : Nat) (hf act : Bool) {i : Nat} (hi : i < 8) :
    (timer8 h hf act).getLsbD i =
      if i < 4 then (BitVec.ofNat 4 (h % 10)).getLsbD i
      else if i < 6 then (BitVec.ofNat 2 (h / 10)).getLsbD (i - 4)
      else if i = 6 then hf else act := by
  simp only [timer8, BitVec.getLsbD_append, BitVec.getLsbD_ofBool]
  interval_cases i <;> simp

theorem lo_timer8 (h : Nat) (hf act : Bool) : lo (timer8 h hf act) = BitVec.ofNat 4 (h % 10) := by
  apply BitVec.eq_of_getLsbD_eq
  intro i hi
  simp only [lo, BitVec.getLsbD_extractLsb', Nat.zero_add, getLsbD_timer8 h hf act (show i < 8 by omega)]
  simp [hi]

theorem tens_timer8 (h : Nat) (hf act : Bool) :
    (timer8 h hf act).extractLsb' 4 2 = BitVec.ofNat 2 (h / 10) := by
  apply BitVec.eq_of_getLsbD_eq
  intro i hi
  simp only [BitVec.getLsbD_extractLsb', getLsbD_timer8 h hf act (show 4 + i < 8 by omega)]
  interval_cases i <;> simp

theorem half_timer8 (h : Nat) (hf act : Bool) : bitOf (timer8 h hf act) 6 = hf := by
  rw [bitOf, getLsbD_timer8 _ _ _ (by omega)]; rfl

theorem active_timer8 (h : Nat) (hf act : Bool) : bitOf (timer8 h hf act) 7 = act := by
  rw [bitOf, getLsbD_timer8 _ _ _ (by omega)]; rfl

/-! ## Defaults -/

theorem tempOrDefault_in {a : Int} (h : 16 ≤ a ∧ a ≤ 30) : (tempOrDefault a : Int) = a := by
  have : tempOrDefault a = a.toNat := if_pos h
  omega

theorem tempOrDefault_out {a : Int} (h : ¬ (16 ≤ a ∧ a ≤ 30)) : tempOrDefault a = 24 := if_neg h

theorem tempOrDefault_le (a : Int) : tempOrDefault a ≤ 30 := by
  by_cases h : 16 ≤ a ∧ a ≤ 30
  · have := tempOrDefault_in h; omega
  · rw [tempOrDefault_out h]; omega

theorem hourOk_iff (h : Int) : hourOk h = true ↔ 0 ≤ h ∧ h ≤ 23 := by
  simp [hourOk, hourMax]

theorem minuteOk_iff (m : Int) : minuteOk m = true ↔ 0 ≤ m ∧ m ≤ 59 := by
  simp [minuteOk, minuteMax]

theorem timeOrZero_in {h m : Int} (hh : 0 ≤ h ∧ h ≤ 23) (hm : 0 ≤ m ∧ m ≤ 59) :
    timeOrZero h m = (h.toNat, m.toNat) := by
  rw [timeOrZero, (hourOk_iff h).2 hh, (minuteOk_iff m).2 hm]; rfl

theorem timeOrZero_out {h m : Int} (hn : ¬ ((0 ≤ h ∧ h ≤ 23) ∧ (0 ≤ m ∧ m ≤ 59))) : timeOrZero h m = (0, 0) := by
  rw [timeOrZero, if_neg]
  rwa [Bool.and_eq_true, hourOk_iff, minuteOk_iff]

theorem timerHourOrZero_in {h : Int} (hh : 0 ≤ h ∧ h ≤ 23) : timerHourOrZero h = h.toNat :=
  if_pos ((hourOk_iff h).2 hh)

theorem timerHourOrZero_out {h : Int} (hn : ¬ (0 ≤ h ∧ h ≤ 23)) : timerHourOrZero h = 0 :=
  if_neg fun c => hn ((hourOk_iff h).1 c)

end Sys2Proof.Machine
end

