-- ==== Sys2Proof/Laws/Checksum.lean ====
section
/-! SUPPORT. How the checksum answers to a change of byte 7 (R171). -/

namespace Sys2Proof.Machine

theorem frameValid_iff (f : Frame) : frameValid f = true ↔ f.b0 = headerByte ∧ hi f.b7 = cs f := by
  simp [frameValid]

/-- The checksum reads only the low nibble of byte 7. -/
theorem cs_of_same_low {f : Frame} {v : Byte} (h : lo v = lo f.b7) : cs { f with b7 := v } = cs f := by
  simp only [cs, nibbleSum, h]

/-- A change of the low nibble of byte 7 changes the checksum. -/
theorem cs_ne_of_low_ne {f : Frame} {v : Byte} (h : lo v ≠ lo f.b7) : cs { f with b7 := v } ≠ cs f := by
  intro e
  have hs := congrArg BitVec.toNat e
  simp only [cs, nibbleSum, BitVec.toNat_ofNat] at hs
  have h1 := (lo v).isLt
  have h2 := (lo f.b7).isLt
  exact h (BitVec.eq_of_toNat_eq (by omega))

end Sys2Proof.Machine
end

