-- ==== Sys2Proof/Laws/Decode.lean ====
section
/-! SUPPORT. What the pieces of the decoder can do, said once: an operand that reads as a value is the number of that
value, and operands that fit a format are those of its encoding. -/

namespace Sys2Proof

@[simp] theorem asU8_ofU8 (b : Byte) : asU8 (.num (ofU8 b)) = .ok b := by
  have h : (0 : Int) ≤ b.toNat ∧ (b.toNat : Int) < 256 := by have := b.isLt; omega
  simp only [asU8, ofU8, h, and_self, if_true]
  simp

@[simp] theorem asU1_ofU1 (v : Bool) : asU1 (.num (ofU1 v)) = .ok v := by cases v <;> rfl

@[simp] theorem asInt_num (v : Int) : asInt (.num v) = .ok v := rfl

theorem asU8_ok {o : Operand} {b : Byte} (h : asU8 o = .ok b) : o = .num (ofU8 b) := by
  unfold asU8 at h
  split at h
  · split_ifs at h with hv
    cases h
    congr 1
    simp only [ofU8, BitVec.toNat_ofNat]
    omega
  · cases h

theorem asU1_ok {o : Operand} {v : Bool} (h : asU1 o = .ok v) : o = .num (ofU1 v) := by
  unfold asU1 at h
  split at h
  · split_ifs at h with h0 h1 <;> cases h <;> simp_all [ofU1]
  · cases h

theorem asInt_ok {o : Operand} {v : Int} (h : asInt o = .ok v) : o = .num v := by
  unfold asInt at h
  split at h <;> cases h
  rfl

/-- A sequence of reads succeeds only if each does. -/
theorem except_bind_ok {ε α β : Type} {x : Except ε α} {g : α → Except ε β} {b : β} (h : (x >>= g) = .ok b) :
    ∃ a, x = .ok a ∧ g a = .ok b := by
  cases x with
  | error => cases h
  | ok a => exact ⟨a, rfl, h⟩

theorem num_inj {a b : Int} (h : Operand.num a = .num b) : a = b := by injection h

/-- The record read is the one whose fields are written. -/
theorem recordOf_ok {l : List Int} {ls : LogicalState} (h : recordOf l = .ok ls) :
    l = recordFields ls := by
  unfold recordOf at h
  split at h
  · obtain ⟨a1, h1, h⟩ := except_bind_ok h
    obtain ⟨a2, h2, h⟩ := except_bind_ok h
    obtain ⟨a3, h3, h⟩ := except_bind_ok h
    obtain ⟨a4, h4, h⟩ := except_bind_ok h
    obtain ⟨a5, h5, h⟩ := except_bind_ok h
    obtain ⟨a6, h6, h⟩ := except_bind_ok h
    obtain ⟨a7, h7, h⟩ := except_bind_ok h
    obtain ⟨a8, h8, h⟩ := except_bind_ok h
    obtain ⟨a9, h9, h⟩ := except_bind_ok h
    cases h
    simp [recordFields, num_inj (asU8_ok h1), num_inj (asU8_ok h2),
      num_inj (asU1_ok h3), num_inj (asU1_ok h4), num_inj (asU1_ok h5),
      num_inj (asU1_ok h6), num_inj (asU1_ok h7), num_inj (asU1_ok h8), num_inj (asU1_ok h9)]
  · cases h

theorem formatN_ok {i : Instr} {l : List Operand} {j : Instr} (h : formatN i l = .ok j) :
    l = [] ∧ j = i := by
  unfold formatN at h
  split at h <;> cases h
  exact ⟨rfl, rfl⟩

theorem formatC8_ok {i : Byte → Instr} {l : List Operand} {j : Instr} (h : formatC8 i l = .ok j) :
    ∃ b, l = [.num (ofU8 b)] ∧ j = i b := by
  unfold formatC8 at h
  split at h
  · obtain ⟨a, h1, h⟩ := except_bind_ok h
    cases h
    exact ⟨a, by rw [asU8_ok h1], rfl⟩
  · cases h

theorem formatB_ok {i : Bool → Instr} {l : List Operand} {j : Instr} (h : formatB i l = .ok j) :
    ∃ b, l = [.num (ofU1 b)] ∧ j = i b := by
  unfold formatB at h
  split at h
  · obtain ⟨a, h1, h⟩ := except_bind_ok h
    cases h
    exact ⟨a, by rw [asU1_ok h1], rfl⟩
  · cases h

theorem formatI1_ok {i : Int → Instr} {l : List Operand} {j : Instr} (h : formatI1 i l = .ok j) :
    ∃ b, l = [.num b] ∧ j = i b := by
  unfold formatI1 at h
  split at h
  · obtain ⟨a, h1, h⟩ := except_bind_ok h
    cases h
    exact ⟨a, by rw [asInt_ok h1], rfl⟩
  · cases h

theorem formatI2_ok {i : Int → Int → Instr} {l : List Operand} {j : Instr} (h : formatI2 i l = .ok j) :
    ∃ b c, l = [.num b, .num c] ∧ j = i b c := by
  unfold formatI2 at h
  split at h
  · obtain ⟨a, h1, h⟩ := except_bind_ok h
    obtain ⟨b, h2, h⟩ := except_bind_ok h
    cases h
    exact ⟨a, b, by rw [asInt_ok h1, asInt_ok h2], rfl⟩
  · cases h

theorem formatTM_ok {i : Int → Bool → Bool → Instr} {l : List Operand} {j : Instr} (h : formatTM i l = .ok j) :
    ∃ b c d, l = [.num b, .num (ofU1 c), .num (ofU1 d)] ∧ j = i b c d := by
  unfold formatTM at h
  split at h
  · obtain ⟨a, h1, h⟩ := except_bind_ok h
    obtain ⟨b, h2, h⟩ := except_bind_ok h
    obtain ⟨c, h3, h⟩ := except_bind_ok h
    cases h
    exact ⟨a, b, c, by rw [asInt_ok h1, asU1_ok h2, asU1_ok h3], rfl⟩
  · cases h

theorem formatF8_ok {i : Byte → Byte → Byte → Byte → Byte → Byte → Byte → Byte → Instr} {l : List Operand}
    {j : Instr} (h : formatF8 i l = .ok j) :
    ∃ b0 b1 b2 b3 b4 b5 b6 b7,
      l = [.num (ofU8 b0), .num (ofU8 b1), .num (ofU8 b2), .num (ofU8 b3),
           .num (ofU8 b4), .num (ofU8 b5), .num (ofU8 b6), .num (ofU8 b7)] ∧
      j = i b0 b1 b2 b3 b4 b5 b6 b7 := by
  unfold formatF8 at h
  split at h
  · obtain ⟨a0, h0, h⟩ := except_bind_ok h
    obtain ⟨a1, h1, h⟩ := except_bind_ok h
    obtain ⟨a2, h2, h⟩ := except_bind_ok h
    obtain ⟨a3, h3, h⟩ := except_bind_ok h
    obtain ⟨a4, h4, h⟩ := except_bind_ok h
    obtain ⟨a5, h5, h⟩ := except_bind_ok h
    obtain ⟨a6, h6, h⟩ := except_bind_ok h
    obtain ⟨a7, h7, h⟩ := except_bind_ok h
    cases h
    refine ⟨a0, a1, a2, a3, a4, a5, a6, a7, ?_, rfl⟩
    rw [asU8_ok h0, asU8_ok h1, asU8_ok h2, asU8_ok h3, asU8_ok h4, asU8_ok h5, asU8_ok h6, asU8_ok h7]
  · cases h

theorem formatST_ok {i : LogicalState → Instr} {l : List Operand} {j : Instr} (h : formatST i l = .ok j) :
    ∃ ls, l = [.record (recordFields ls)] ∧ j = i ls := by
  unfold formatST at h
  split at h
  · obtain ⟨a, h1, h⟩ := except_bind_ok h
    cases h
    exact ⟨a, by rw [recordOf_ok h1], rfl⟩
  · cases h

theorem formatEV_ok {i : Items → Instr} {l : List Operand} {j : Instr} (h : formatEV i l = .ok j) :
    ∃ e, l = [.items e] ∧ j = i e := by
  unfold formatEV at h
  split at h <;> cases h
  exact ⟨_, rfl, rfl⟩

/-! ## Operands that fit a format are read -/

theorem asU1_of_admits {v : Int} (h : OperandSort.u1.admits v = true) : ∃ b, asU1 (.num v) = .ok b := by
  simp only [OperandSort.admits, Bool.or_eq_true, beq_iff_eq] at h
  rcases h with rfl | rfl <;> exact ⟨_, rfl⟩

theorem asU8_of_admits {v : Int} (h : OperandSort.u8.admits v = true) : ∃ b, asU8 (.num v) = .ok b := by
  simp only [OperandSort.admits, Bool.and_eq_true, decide_eq_true_eq] at h
  exact ⟨_, if_pos h⟩

/-- Operands that fit a list of sorts are numbers in their ranges. -/
theorem numbers_fits {sorts : List OperandSort} {ops : List Operand} (h : (Shape.numbers sorts).fits ops = true) :
    ∃ vs, ops = vs.map .num ∧ admitsAll sorts vs = true := by
  have key : ∀ (ops : List Operand) vs, numbersOf ops = some vs → ops = vs.map .num := by
    intro ops; induction ops with
    | nil => intro vs h; cases h; rfl
    | cons o ops ih =>
      intro vs h
      cases o with
      | num v =>
        simp only [numbersOf, Option.map_eq_some_iff] at h
        obtain ⟨ws, hw, rfl⟩ := h
        rw [ih ws hw]; rfl
      | _ => cases h
  simp only [Shape.fits] at h
  split at h
  · exact ⟨_, key _ _ ‹_›, h⟩
  · cases h

theorem admitsAll_cons {s : OperandSort} {ss : List OperandSort} {vs : List Int}
    (h : admitsAll (s :: ss) vs = true) : ∃ v ws, vs = v :: ws ∧ s.admits v = true ∧ admitsAll ss ws = true := by
  cases vs with
  | nil => cases h
  | cons v ws => simp only [admitsAll, Bool.and_eq_true] at h; exact ⟨v, ws, rfl, h.1, h.2⟩

theorem admitsAll_nil {vs : List Int} (h : admitsAll [] vs = true) : vs = [] := by
  cases vs with
  | nil => rfl
  | cons v ws => cases h

theorem formatN_of_fits {i : Instr} {ops : List Operand}
    (h : Format.n.shape.fits ops = true) : ∃ j, formatN i ops = .ok j := by
  obtain ⟨vs, rfl, h'⟩ := numbers_fits h
  clear h; rename' h' => h
  obtain rfl := admitsAll_nil h
  exact ⟨_, rfl⟩

theorem formatC8_of_fits {i : Byte → Instr} {ops : List Operand}
    (h : Format.c8.shape.fits ops = true) : ∃ j, formatC8 i ops = .ok j := by
  obtain ⟨vs, rfl, h'⟩ := numbers_fits h
  clear h; rename' h' => h
  obtain ⟨a, _, rfl, ha, h⟩ := admitsAll_cons h
  obtain rfl := admitsAll_nil h
  obtain ⟨b, hb⟩ := asU8_of_admits ha
  simp [formatC8, hb]

theorem formatB_of_fits {i : Bool → Instr} {ops : List Operand}
    (h : Format.b.shape.fits ops = true) : ∃ j, formatB i ops = .ok j := by
  obtain ⟨vs, rfl, h'⟩ := numbers_fits h
  clear h; rename' h' => h
  obtain ⟨a, _, rfl, ha, h⟩ := admitsAll_cons h
  obtain rfl := admitsAll_nil h
  obtain ⟨b, hb⟩ := asU1_of_admits ha
  simp [formatB, hb]

theorem formatI1_of_fits {i : Int → Instr} {ops : List Operand}
    (h : Format.i1.shape.fits ops = true) : ∃ j, formatI1 i ops = .ok j := by
  obtain ⟨vs, rfl, h'⟩ := numbers_fits h
  clear h; rename' h' => h
  obtain ⟨a, _, rfl, ha, h⟩ := admitsAll_cons h
  obtain rfl := admitsAll_nil h
  exact ⟨_, rfl⟩

theorem formatI2_of_fits {i : Int → Int → Instr} {ops : List Operand}
    (h : Format.i2.shape.fits ops = true) : ∃ j, formatI2 i ops = .ok j := by
  obtain ⟨vs, rfl, h'⟩ := numbers_fits h
  clear h; rename' h' => h
  obtain ⟨a, _, rfl, ha, h⟩ := admitsAll_cons h
  obtain ⟨a, _, rfl, ha, h⟩ := admitsAll_cons h
  obtain rfl := admitsAll_nil h
  exact ⟨_, rfl⟩

theorem formatTM_of_fits {i : Int → Bool → Bool → Instr} {ops : List Operand}
    (h : Format.tm.shape.fits ops = true) : ∃ j, formatTM i ops = .ok j := by
  obtain ⟨vs, rfl, h'⟩ := numbers_fits h
  clear h; rename' h' => h
  obtain ⟨a, _, rfl, ha, h⟩ := admitsAll_cons h
  obtain ⟨a1, _, rfl, h1, h⟩ := admitsAll_cons h
  obtain ⟨a2, _, rfl, h2, h⟩ := admitsAll_cons h
  obtain rfl := admitsAll_nil h
  obtain ⟨b1, h1⟩ := asU1_of_admits h1
  obtain ⟨b2, h2⟩ := asU1_of_admits h2
  exact ⟨i a b1 b2, by simp only [formatTM, List.map, h1, h2]; rfl⟩

theorem formatF8_of_fits {i : Byte → Byte → Byte → Byte → Byte → Byte → Byte → Byte → Instr} {ops : List Operand}
    (h : Format.f8.shape.fits ops = true) : ∃ j, formatF8 i ops = .ok j := by
  obtain ⟨vs, rfl, h'⟩ := numbers_fits h
  clear h; rename' h' => h
  obtain ⟨a0, _, rfl, h0, h⟩ := admitsAll_cons h
  obtain ⟨a1, _, rfl, h1, h⟩ := admitsAll_cons h
  obtain ⟨a2, _, rfl, h2, h⟩ := admitsAll_cons h
  obtain ⟨a3, _, rfl, h3, h⟩ := admitsAll_cons h
  obtain ⟨a4, _, rfl, h4, h⟩ := admitsAll_cons h
  obtain ⟨a5, _, rfl, h5, h⟩ := admitsAll_cons h
  obtain ⟨a6, _, rfl, h6, h⟩ := admitsAll_cons h
  obtain ⟨a7, _, rfl, h7, h⟩ := admitsAll_cons h
  obtain rfl := admitsAll_nil h
  obtain ⟨_, h0⟩ := asU8_of_admits h0
  obtain ⟨_, h1⟩ := asU8_of_admits h1
  obtain ⟨_, h2⟩ := asU8_of_admits h2
  obtain ⟨_, h3⟩ := asU8_of_admits h3
  obtain ⟨_, h4⟩ := asU8_of_admits h4
  obtain ⟨_, h5⟩ := asU8_of_admits h5
  obtain ⟨_, h6⟩ := asU8_of_admits h6
  obtain ⟨_, h7⟩ := asU8_of_admits h7
  exact ⟨_, by simp only [formatF8, List.map, h0,h1,h2,h3,h4,h5,h6,h7]; rfl⟩

theorem formatST_of_fits {i : LogicalState → Instr} {ops : List Operand}
    (h : Format.st.shape.fits ops = true) : ∃ j, formatST i ops = .ok j := by
  match ops, h with
  | [.record vs], h =>
    change admitsAll recordSorts vs = true at h
    obtain ⟨a0, _, rfl, h0, h⟩ := admitsAll_cons h
    obtain ⟨a1, _, rfl, h1, h⟩ := admitsAll_cons h
    obtain ⟨a2, _, rfl, -, h⟩ := admitsAll_cons h
    obtain ⟨a3, _, rfl, -, h⟩ := admitsAll_cons h
    obtain ⟨a4, _, rfl, -, h⟩ := admitsAll_cons h
    obtain ⟨a5, _, rfl, -, h⟩ := admitsAll_cons h
    obtain ⟨a6, _, rfl, h6, h⟩ := admitsAll_cons h
    obtain ⟨a7, _, rfl, h7, h⟩ := admitsAll_cons h
    obtain ⟨a8, _, rfl, -, h⟩ := admitsAll_cons h
    obtain ⟨a9, _, rfl, h9, h⟩ := admitsAll_cons h
    obtain ⟨b0, _, rfl, hb0, h⟩ := admitsAll_cons h
    obtain ⟨b1, _, rfl, hb1, h⟩ := admitsAll_cons h
    obtain ⟨b2, _, rfl, hb2, h⟩ := admitsAll_cons h
    obtain ⟨b3, _, rfl, hb3, h⟩ := admitsAll_cons h
    obtain rfl := admitsAll_nil h
    obtain ⟨_, h0⟩ := asU8_of_admits h0
    obtain ⟨_, h1⟩ := asU8_of_admits h1
    obtain ⟨_, h6⟩ := asU1_of_admits h6
    obtain ⟨_, h7⟩ := asU1_of_admits h7
    obtain ⟨_, h9⟩ := asU1_of_admits h9
    obtain ⟨_, hb0⟩ := asU1_of_admits hb0
    obtain ⟨_, hb1⟩ := asU1_of_admits hb1
    obtain ⟨_, hb2⟩ := asU1_of_admits hb2
    obtain ⟨_, hb3⟩ := asU1_of_admits hb3
    exact ⟨_, by simp only [formatST, recordOf, h0,h1,h6,h7,h9,hb0,hb1,hb2,hb3, bind, Except.bind]; rfl⟩

theorem formatEV_of_fits {i : Items → Instr} {ops : List Operand}
    (h : Format.ev.shape.fits ops = true) : ∃ j, formatEV i ops = .ok j := by
  match ops, h with
  | [.items e], h => exact ⟨_, rfl⟩

/-- A selector is the byte of its number. -/
theorem opc_of_toNat {o : Byte} {n : Nat} (h : o.toNat = n) : o = BitVec.ofNat 8 n := by
  subst h
  simp

end Sys2Proof
end

