-- ==== Sys2Proof/Laws/State.lean ====
section
/-! SUPPORT. Every field after every update of a state, so that no proof unfolds a record update. -/

namespace Sys2Proof.Machine

@[simp] theorem State.setFrame_frame (s : State) (f : Frame) : (s.setFrame f).frame = f := rfl
@[simp] theorem State.setFrame_frameW (s : State) (f : Frame) : (s.setFrame f).frameW = true := rfl
@[simp] theorem State.setFrame_rxStatus (s : State) (f : Frame) : (s.setFrame f).rxStatus = s.rxStatus := rfl
@[simp] theorem State.setFrame_result (s : State) (f : Frame) : (s.setFrame f).result = s.result := rfl
@[simp] theorem State.setFrame_pending (s : State) (f : Frame) : (s.setFrame f).pending = s.pending := rfl
@[simp] theorem State.setFrame_win (s : State) (f : Frame) : (s.setFrame f).win = s.win := rfl

@[simp] theorem State.setBytes_frame (s : State) (f : Frame) : (s.setBytes f).frame = f := rfl
@[simp] theorem State.setBytes_frameW (s : State) (f : Frame) : (s.setBytes f).frameW = s.frameW := rfl
@[simp] theorem State.setBytes_rxStatus (s : State) (f : Frame) : (s.setBytes f).rxStatus = s.rxStatus := rfl
@[simp] theorem State.setBytes_result (s : State) (f : Frame) : (s.setBytes f).result = s.result := rfl
@[simp] theorem State.setBytes_pending (s : State) (f : Frame) : (s.setBytes f).pending = s.pending := rfl
@[simp] theorem State.setBytes_win (s : State) (f : Frame) : (s.setBytes f).win = s.win := rfl

@[simp] theorem State.setStatus_frame (s : State) (v : Word16) : (s.setStatus v).frame = s.frame := rfl
@[simp] theorem State.setStatus_frameW (s : State) (v : Word16) : (s.setStatus v).frameW = s.frameW := rfl
@[simp] theorem State.setStatus_rxStatus (s : State) (v : Word16) : (s.setStatus v).rxStatus = v := rfl
@[simp] theorem State.setStatus_result (s : State) (v : Word16) : (s.setStatus v).result = s.result := rfl
@[simp] theorem State.setStatus_pending (s : State) (v : Word16) : (s.setStatus v).pending = s.pending := rfl
@[simp] theorem State.setStatus_win (s : State) (v : Word16) : (s.setStatus v).win = s.win := rfl

@[simp] theorem State.answer_frame (s : State) (r : Result) : (s.answer r).frame = s.frame := rfl
@[simp] theorem State.answer_frameW (s : State) (r : Result) : (s.answer r).frameW = s.frameW := rfl
@[simp] theorem State.answer_rxStatus (s : State) (r : Result) : (s.answer r).rxStatus = s.rxStatus := rfl
@[simp] theorem State.answer_result (s : State) (r : Result) : (s.answer r).result = r := rfl
@[simp] theorem State.answer_pending (s : State) (r : Result) : (s.answer r).pending = s.pending := rfl
@[simp] theorem State.answer_win (s : State) (r : Result) : (s.answer r).win = s.win := rfl

@[simp] theorem State.setPending_frame (s : State) (l : List Input) : (s.setPending l).frame = s.frame := rfl
@[simp] theorem State.setPending_frameW (s : State) (l : List Input) : (s.setPending l).frameW = s.frameW := rfl
@[simp] theorem State.setPending_rxStatus (s : State) (l : List Input) : (s.setPending l).rxStatus = s.rxStatus := rfl
@[simp] theorem State.setPending_result (s : State) (l : List Input) : (s.setPending l).result = s.result := rfl
@[simp] theorem State.setPending_pending (s : State) (l : List Input) : (s.setPending l).pending = l := rfl
@[simp] theorem State.setPending_win (s : State) (l : List Input) : (s.setPending l).win = s.win := rfl

@[simp] theorem State.reset_frame : State.reset.frame = ⟨0, 0, 0, 0, 0, 0, 0, 0⟩ := rfl
@[simp] theorem State.reset_frameW : State.reset.frameW = false := rfl
@[simp] theorem State.reset_rxStatus : State.reset.rxStatus = 0 := rfl
@[simp] theorem State.reset_result : State.reset.result = .empty := rfl
@[simp] theorem State.reset_pending : State.reset.pending = [] := rfl
@[simp] theorem State.reset_win : State.reset.win = windowDefault := rfl

@[simp] theorem State.applyReset_frame (s : State) : s.applyReset.frame = ⟨0, 0, 0, 0, 0, 0, 0, 0⟩ := rfl
@[simp] theorem State.applyReset_frameW (s : State) : s.applyReset.frameW = false := rfl
@[simp] theorem State.applyReset_rxStatus (s : State) : s.applyReset.rxStatus = 0 := rfl
@[simp] theorem State.applyReset_result (s : State) : s.applyReset.result = .empty := rfl
@[simp] theorem State.applyReset_pending (s : State) : s.applyReset.pending = s.pending := rfl
@[simp] theorem State.applyReset_win (s : State) : s.applyReset.win = s.win := rfl

/-- Two states with equal fields are equal. -/
theorem State.ext_fields {s t : State} (hf : s.frame = t.frame) (hW : s.frameW = t.frameW) (hx : s.rxStatus = t.rxStatus)
    (hr : s.result = t.result) (hp : s.pending = t.pending) (hw : s.win = t.win) : s = t := by
  cases s; cases t; simp_all

end Sys2Proof.Machine
end

