-- ==== Sys2Proof/Laws/Ops.lean ====
section
/-! SUPPORT. What the shared operations over FRAME can do, said once. -/

namespace Sys2Proof.Machine

theorem readFrame_next {k : Frame → Result} {s t : State} (h : readFrame k s = .next t) : t = s.answer (k s.frame) := by
  cases h; rfl

theorem updateFrame_next {g : Frame → Frame} {s t : State} (h : updateFrame g s = .next t) :
    t = (s.setBytes (g s.frame)).answer .empty := by
  cases h; rfl

theorem replaceFrame_next {f : Frame} {s t : State} (h : replaceFrame f s = .next t) :
    t = (s.setFrame f).answer .empty := by
  cases h; rfl

end Sys2Proof.Machine
end

