-- ==== Sys2Proof/Laws/Guard.lean ====
section
/-! SUPPORT. What a guarded command can do, said once. -/

namespace Sys2Proof.Machine

@[simp] theorem State.setFrame_writtenFrame (s : State) (f : Frame) : (s.setFrame f).writtenFrame = some f := rfl
@[simp] theorem State.reset_writtenFrame : State.reset.writtenFrame = none := rfl
@[simp] theorem State.applyReset_writtenFrame (s : State) : s.applyReset.writtenFrame = none := rfl

theorem State.writtenFrame_eq_none (s : State) : s.writtenFrame = none ↔ s.frameW = false := by
  cases h : s.frameW <;> simp [State.writtenFrame, h]

theorem frameUnwritten_iff (i : Instr) (s : State) :
    frameUnwritten i s = true ↔ needsFrame i = true ∧ s.frameW = false := by
  simp [frameUnwritten]

theorem guardedExec_of_unwritten {i : Instr} {s : State} (h : frameUnwritten i s = true) :
    guardedExec i s = .fault .frameUnwritten := if_pos h

theorem guardedExec_of_not {i : Instr} {s : State} (h : frameUnwritten i s = false) : guardedExec i s = exec i s :=
  if_neg (by simp [h])

/-- A guarded command that completes has its own effect, and not on an unwritten frame. -/
theorem guardedExec_next {i : Instr} {s t : State} (h : guardedExec i s = .next t) :
    frameUnwritten i s = false ∧ exec i s = .next t := by
  cases hu : frameUnwritten i s with
  | true => rw [guardedExec_of_unwritten hu] at h; cases h
  | false => exact ⟨rfl, by rwa [guardedExec_of_not hu] at h⟩

end Sys2Proof.Machine
end

