-- ==== Sys2Proof/Laws/Exec.lean ====
section
/-! SUPPORT. What a command and a step can do, said once. -/

namespace Sys2Proof.Machine

/-- The five ways a command completes: it only answers; it changes the bytes of FRAME; it gives FRAME a value; it is one
of the two receives. -/
theorem exec_next {i : Instr} {s t : State} (h : exec i s = .next t) :
    (∃ r, t = s.answer r) ∨ (∃ f, t = (s.setBytes f).answer .empty) ∨
    (needsFrame i = false ∧ ∃ f, t = (s.setFrame f).answer .empty) ∨
    (∃ e, i = .demodulate e ∧ t = (commitReceive (demod s.win e) s).answer (.demodulated (demod s.win e))) ∨
    (∃ e, i = .receive e ∧ t =
      (commitReceive (receiveCheck s.win e) s).answer (.received (receivedFrame (receiveCheck s.win e)))) := by
  cases i
  case frameInit | frameLoad | encode => exact .inr (.inr (.inl ⟨rfl, _, replaceFrame_next h⟩))
  case demodulate e => cases h; exact .inr (.inr (.inr (.inl ⟨e, rfl, rfl⟩)))
  case receive e => cases h; exact .inr (.inr (.inr (.inr ⟨e, rfl, rfl⟩)))
  case statusRead => cases h; exact .inl ⟨_, rfl⟩
  case setMode | setFan | setTemp | setTime | setOnTimer | setOffTimer | setSwing | setSleep | setPowerToggle
      | finalize =>
    exact .inr (.inl ⟨_, updateFrame_next h⟩)
  all_goals cases h; exact .inl ⟨_, rfl⟩

@[simp] theorem commitReceive_win (r : Except RxFailure (Frame × Nat)) (s : State) :
    (commitReceive r s).win = s.win := by
  unfold commitReceive; split <;> rfl

@[simp] theorem commitReceive_pending (r : Except RxFailure (Frame × Nat)) (s : State) :
    (commitReceive r s).pending = s.pending := by
  unfold commitReceive; split <;> rfl

/-- What each setter does to the frame, as a function of the frame. -/
def setterOf : Instr → Frame → Frame
  | .setMode code => setModeOf code
  | .setFan code => setFanOf code
  | .setTemp a => setTempOf a
  | .setTime h m => setTimeOf h m
  | .setOnTimer h hf act => setOnTimerOf h hf act
  | .setOffTimer h hf act => setOffTimerOf h hf act
  | .setSwing v => setSwingOf v
  | .setSleep v => setSleepOf v
  | .setPowerToggle v => setPowerToggleOf v
  | _ => id

/-- A setter runs through `updateFrame`. -/
theorem exec_setter {i : Instr} {X : Field} (h : setterField i = some X) (s : State) :
    exec i s = updateFrame (setterOf i) s := by
  cases i <;> first | rfl | cases h

/-- What each getter answers of the frame. -/
def getterOf : Instr → Frame → Result
  | .getMode => fun f => .mode (modeName (lo f.b1)) (lo f.b1)
  | .getFan => fun f => .fan (fanName (hi f.b1)) (hi f.b1)
  | .getTemp => fun f => .temp (tempOf f.b6).1 (tempOf f.b6).2
  | .getTime => fun f => .time (unbcd f.b3) (unbcd f.b2)
  | .getOnTimer => fun f => .timer (timerHour f.b4) (timerHalf f.b4) (timerActive f.b4)
  | .getOffTimer => fun f => .timer (timerHour f.b5) (timerHalf f.b5) (timerActive f.b5)
  | .getSwing => fun f => .bit (bitOf f.b7 0)
  | .getSleep => fun f => .bit (bitOf f.b7 1)
  | .getPowerToggle => fun f => .bit (bitOf f.b7 3)
  | _ => fun _ => .empty

/-- A getter runs through `readFrame`. -/
theorem exec_getter {i : Instr} {X : Field} (h : getterField i = some X) (s : State) :
    exec i s = readFrame (getterOf i) s := by
  cases i <;> first | rfl | cases h

/-- The three ways a step completes: nothing was issued; a reset; a command that decodes and completes, and reads no
unwritten FRAME. -/
theorem step_next {s t : State} (h : step s = .next t) :
    (s.pending = [] ∧ t = s) ∨
    (∃ rest, s.pending = .reset :: rest ∧ t = (s.setPending rest).applyReset) ∨
    (∃ c rest i, s.pending = .command c :: rest ∧ decode c = .ok i ∧ frameUnwritten i s = false ∧
      exec i (s.setPending rest) = .next t) := by
  unfold step takeNext at h
  split at h
  · cases h; exact .inl ⟨‹_›, rfl⟩
  · rename_i x rest hp
    cases x with
    | reset => cases h; exact .inr (.inl ⟨rest, hp, rfl⟩)
    | command c =>
      simp only [takeInput, runCommand] at h
      split at h
      · obtain ⟨hu, hx⟩ := guardedExec_next h
        exact .inr (.inr ⟨c, rest, _, hp, ‹_›, hu, hx⟩)
      · cases h

/-- A command in the block completes, always (R230). -/
theorem exec_completes (i : Instr) (s : State) : ∃ t, exec i s = .next t := by
  cases i <;> exact ⟨_, rfl⟩

/-- A step that faults has an unwritten FRAME to read. -/
theorem step_fault {s : State} {f : Fault} (h : step s = .fault f) : f = .frameUnwritten ∧ unwrittenAhead s = true := by
  unfold step takeNext at h
  split at h
  · cases h
  · rename_i x rest hp
    cases x with
    | reset => cases h
    | command c =>
      simp only [takeInput, runCommand] at h
      split at h
      · rename_i i hd
        cases hu : frameUnwritten i (s.setPending rest) with
        | true =>
          rw [guardedExec_of_unwritten hu] at h
          cases h
          exact ⟨rfl, by simp only [unwrittenAhead, hp, hd]; exact hu⟩
        | false =>
          obtain ⟨t, ht⟩ := exec_completes i (s.setPending rest)
          rw [guardedExec_of_not hu, ht] at h
          cases h
      · cases h

end Sys2Proof.Machine
end

