-- ==== Sys2Proof/Laws/Flags.lean ====
section
/-! SUPPORT. The fields of RX_STATUS after a write (R35). -/

namespace Sys2Proof.Machine

/-- Each bit of a packed status word: OK, REASON, the reserved bits, POS, from bit 0 up. -/
theorem getLsbD_statusPack (p : Byte) (r : BitVec 3) (ok : Bool) (i : Nat) :
    (statusPack p r ok).getLsbD i =
      if i < 1 then ok else if i < 4 then r.getLsbD (i - 1) else if i < 8 then false else p.getLsbD (i - 8) := by
  simp only [statusPack, BitVec.getLsbD_append, BitVec.getLsbD_ofBool]
  split_ifs <;> first | omega | simp_all
  congr 1

@[simp] theorem statusOk_pack (p : Byte) (r : BitVec 3) (ok : Bool) : statusOk (statusPack p r ok) = ok := by
  simp only [statusOk, getLsbD_statusPack, Nat.zero_lt_one, if_true]

@[simp] theorem statusReason_pack (p : Byte) (r : BitVec 3) (ok : Bool) : statusReason (statusPack p r ok) = r := by
  apply BitVec.eq_of_getLsbD_eq; intro i hi
  simp only [statusReason, BitVec.getLsbD_extractLsb', getLsbD_statusPack]
  interval_cases i <;> simp

@[simp] theorem statusReserved_pack (p : Byte) (r : BitVec 3) (ok : Bool) :
    statusReserved (statusPack p r ok) = 0 := by
  apply BitVec.eq_of_getLsbD_eq; intro i hi
  simp only [statusReserved, BitVec.getLsbD_extractLsb', getLsbD_statusPack]
  interval_cases i <;> simp

@[simp] theorem statusPos_pack (p : Byte) (r : BitVec 3) (ok : Bool) : statusPos (statusPack p r ok) = p := by
  apply BitVec.eq_of_getLsbD_eq; intro i hi
  simp only [statusPos, BitVec.getLsbD_extractLsb', getLsbD_statusPack]
  interval_cases i <;> simp

@[simp] theorem statusOk_word (ok : Bool) (r : Reason) (p : Nat) : statusOk (statusWord ok r p) = ok :=
  statusOk_pack _ _ _

@[simp] theorem statusReason_word (ok : Bool) (r : Reason) (p : Nat) : statusReason (statusWord ok r p) = r.code :=
  statusReason_pack _ _ _

@[simp] theorem statusReserved_word (ok : Bool) (r : Reason) (p : Nat) : statusReserved (statusWord ok r p) = 0 :=
  statusReserved_pack _ _ _

theorem statusPos_word (ok : Bool) (r : Reason) {p : Nat} (hp : p < 256) :
    (statusPos (statusWord ok r p)).toNat = p := by
  simp [statusWord, Nat.mod_eq_of_lt hp]

/-- A word whose reserved bits are 0 reads as it is stored. -/
theorem statusRead_of_reserved {v : Word16} (h : statusReserved v = 0) : statusRead v = v := by
  apply BitVec.eq_of_getLsbD_eq; intro i hi
  have hj : ∀ j < 4, v.getLsbD (4 + j) = false := fun j hj => by
    have := congrArg (fun x : Nibble => x.getLsbD j) h
    simpa [statusReserved, hj] using this
  have h4 := hj 0; have h5 := hj 1; have h6 := hj 2; have h7 := hj 3
  simp only [statusRead, getLsbD_statusPack, statusPos, statusReason, statusOk, BitVec.getLsbD_extractLsb']
  interval_cases i <;> simp_all

end Sys2Proof.Machine
end

