-- ==== Sys2Proof/Laws/Frame.lean ====
section
/-! SUPPORT. The frame as bytes, as cells and as 64 bits in line order. -/

namespace Sys2Proof.Machine

@[simp] theorem Frame.byte?_zero (f : Frame) : f.byte? 0 = some f.b0 := rfl
@[simp] theorem Frame.byte?_one (f : Frame) : f.byte? 1 = some f.b1 := rfl
@[simp] theorem Frame.byte?_two (f : Frame) : f.byte? 2 = some f.b2 := rfl
@[simp] theorem Frame.byte?_three (f : Frame) : f.byte? 3 = some f.b3 := rfl
@[simp] theorem Frame.byte?_four (f : Frame) : f.byte? 4 = some f.b4 := rfl
@[simp] theorem Frame.byte?_five (f : Frame) : f.byte? 5 = some f.b5 := rfl
@[simp] theorem Frame.byte?_six (f : Frame) : f.byte? 6 = some f.b6 := rfl
@[simp] theorem Frame.byte?_seven (f : Frame) : f.byte? 7 = some f.b7 := rfl

/-- No index outside 0..7 exists (R60). -/
theorem Frame.byte?_of_le (f : Frame) {a : Nat} (ha : 8 ≤ a) : f.byte? a = none :=
  List.getElem?_eq_none (by simpa [Frame.bytes] using ha)

/-- Frames that agree at every index are equal. -/
theorem Frame.ext_bytes {f g : Frame} (h : ∀ a < 8, f.byte? a = g.byte? a) : f = g := by
  have h0 := h 0 (by omega)
  have h1 := h 1 (by omega)
  have h2 := h 2 (by omega)
  have h3 := h 3 (by omega)
  have h4 := h 4 (by omega)
  have h5 := h 5 (by omega)
  have h6 := h 6 (by omega)
  have h7 := h 7 (by omega)
  clear h
  cases f; cases g; simp_all

/-- A write of one byte, read back at any index. -/
theorem Frame.byte?_setByte (f : Frame) (a c : Nat) (v : Byte) (ha : a < 8) :
    (f.setByte a v).byte? c = if c = a then some v else f.byte? c := by
  by_cases hc : c < 8
  · interval_cases a <;> interval_cases c <;> rfl
  · rw [Frame.byte?_of_le _ (by omega), Frame.byte?_of_le _ (by omega), if_neg (by omega)]

/-- FRAME_READ's view: reading all eight bytes gives the frame in index order (R13, R65). -/
theorem Frame.memRead_all (f : Frame) : f.memRead 0 8 = some f.bytes := rfl

/-- FRAME_LOAD's view: writing all eight bytes replaces the frame (R13, R65). -/
theorem Frame.memWrite_all (f : Frame) (b0 b1 b2 b3 b4 b5 b6 b7 : Byte) :
    f.memWrite 0 [b0, b1, b2, b3, b4, b5, b6, b7] = ⟨b0, b1, b2, b3, b4, b5, b6, b7⟩ := rfl

/-- The cells of every state are in canonical form. -/
theorem memoryCells_wf (s : State) : memoryWf (memoryCells s) = true := by
  rfl

/-- The cells and the byte space are two views of one frame (R13). -/
theorem memoryLookup_cells (s : State) (a : Nat) : memoryLookup (memoryCells s) a = readByte s a := by
  unfold memoryCells readByte
  by_cases ha : a < 8
  · interval_cases a <;> rfl
  · rw [Frame.byte?_of_le s.frame (by omega), memoryLookup, List.lookup_eq_none_iff]
    simp
    omega

/-! ## Line order -/

@[simp] theorem Frame.bits_length (f : Frame) : f.bits.length = 64 := rfl

/-- Data bit `n` of the row of bits is `FRAME[n div 8][n mod 8]` (R62). -/
theorem Frame.bits_getElem? (f : Frame) {n : Nat} (hn : n < 64) : f.bits[n]? = some (f.dataBit n) := by
  interval_cases n <;> rfl

theorem Frame.bits_getD (f : Frame) {n : Nat} (hn : n < 64) : f.bits.getD n false = f.dataBit n := by
  rw [List.getD_eq_getElem?_getD, f.bits_getElem? hn, Option.getD_some]

/-- Data bit `n` by its byte and its place in the byte. -/
theorem Frame.dataBit_at (f : Frame) {i j : Nat} (hj : j < 8) {b : Byte} (hb : f.byte? i = some b) :
    f.dataBit (8 * i + j) = bitOf b j := by
  simp [Frame.dataBit, show (8 * i + j) / 8 = i by omega, show (8 * i + j) % 8 = j by omega, hb]

/-- The bytes of a frame made of bits. -/
theorem Frame.byte?_ofBits (bs : List Bool) {i : Nat} (hi : i < 8) :
    (Frame.ofBits bs).byte? i = some (byteOfBits fun j => bs.getD (8 * i + j) false) := by
  interval_cases i <;> rfl

/-- Data bit `n` of a frame made of bits. -/
theorem Frame.dataBit_ofBits (bs : List Bool) {n : Nat} (hn : n < 64) :
    (Frame.ofBits bs).dataBit n = bs.getD n false := by
  obtain ⟨i, j, hi, hj, rfl⟩ : ∃ i j, i < 8 ∧ j < 8 ∧ n = 8 * i + j := ⟨n / 8, n % 8, by omega, by omega, by omega⟩
  rw [Frame.dataBit_at _ hj (Frame.byte?_ofBits bs hi), bitOf_byteOfBits _ hj]

/-- Frames with equal data bits are equal. -/
theorem Frame.ext_dataBits {f g : Frame} (h : ∀ n < 64, f.dataBit n = g.dataBit n) : f = g := by
  have key : ∀ i < 8, ∀ a b : Byte, f.byte? i = some a → g.byte? i = some b → a = b := by
    intro i hi a b ha hb
    refine byte_ext_bits fun j hj => ?_
    rw [← Frame.dataBit_at f hj ha, ← Frame.dataBit_at g hj hb]
    exact h _ (by omega)
  have e0 := key 0 (by omega) _ _ rfl rfl
  have e1 := key 1 (by omega) _ _ rfl rfl
  have e2 := key 2 (by omega) _ _ rfl rfl
  have e3 := key 3 (by omega) _ _ rfl rfl
  have e4 := key 4 (by omega) _ _ rfl rfl
  have e5 := key 5 (by omega) _ _ rfl rfl
  have e6 := key 6 (by omega) _ _ rfl rfl
  have e7 := key 7 (by omega) _ _ rfl rfl
  cases f; cases g; simp_all

/-- A frame is the frame of its bits. -/
@[simp] theorem Frame.ofBits_bits (f : Frame) : Frame.ofBits f.bits = f :=
  Frame.ext_dataBits fun _ hn => by rw [Frame.dataBit_ofBits _ hn, f.bits_getD hn]

/-- A write of one byte changes no data bit outside that byte, nor one the new byte agrees on. -/
theorem Frame.dataBit_setByte (f : Frame) {a n : Nat} {v : Byte} (ha : a < 8)
    (h : n / 8 = a → bitOf v (n % 8) = f.dataBit n) : (f.setByte a v).dataBit n = f.dataBit n := by
  rw [Frame.dataBit, Frame.byte?_setByte _ _ _ _ ha]
  split_ifs with hc
  · exact h hc
  · rfl

end Sys2Proof.Machine
end

