-- ==== Sys2Proof/Laws/LineCodec.lean ====
section
/-! SUPPORT. What the pieces of the demodulator can do, each said once, and the length of a modulated frame. -/

namespace Sys2Proof.Machine

/-! ## Modulation -/

@[simp] theorem bitSymbols_length (b : Bool) : (bitSymbols b).length = 2 := rfl

theorem flatMap_bitSymbols_length (bs : List Bool) : (bs.flatMap bitSymbols).length = 2 * bs.length := by
  induction bs with
  | nil => rfl
  | cons b bs ih => simp [ih]; omega

/-- The two symbols of data bit `n` in a row of bits. -/
theorem flatMap_bitSymbols_getElem? (bs : List Bool) (n : Nat) (b : Bool) (h : bs[n]? = some b) :
    (bs.flatMap bitSymbols)[2 * n]? = some (.mark, .short) ∧
    (bs.flatMap bitSymbols)[2 * n + 1]? = some (.space, if b then .one else .short) := by
  induction bs generalizing n with
  | nil => simp at h
  | cons c bs ih =>
    cases n with
    | zero => simp only [List.getElem?_cons_zero, Option.some.injEq] at h; subst h; exact ⟨rfl, rfl⟩
    | succ n =>
      rw [List.getElem?_cons_succ] at h
      have := ih n h
      simp only [List.flatMap_cons, bitSymbols, List.cons_append, List.nil_append,
        show 2 * (n + 1) = 2 * n + 1 + 1 by omega, List.getElem?_cons_succ]
      exact this

@[simp] theorem lineSymbols_length (f : Frame) : (lineSymbols f).length = 133 := by
  simp only [lineSymbols, List.length_append, flatMap_bitSymbols_length, Frame.bits_length, List.length_cons, List.length_nil]

@[simp] theorem modulateFrame_length (f : Frame) : (modulateFrame f).length = 133 := by
  simp [modulateFrame]

/-- The symbols of data bit `n` of a modulated frame (R96). -/
theorem lineSymbols_data (f : Frame) {n : Nat} (hn : n < 64) :
    (lineSymbols f)[2 + 2 * n]? = some (.mark, .short) ∧
    (lineSymbols f)[3 + 2 * n]? = some (.space, if f.dataBit n then .one else .short) := by
  obtain ⟨h1, h2⟩ := flatMap_bitSymbols_getElem? f.bits n _ (f.bits_getElem? hn)
  have hl : (f.bits.flatMap bitSymbols).length = 128 := by rw [flatMap_bitSymbols_length, f.bits_length]
  refine ⟨?_, ?_⟩
  · rw [lineSymbols, List.append_assoc, show 2 + 2 * n = 2 * n + 1 + 1 by omega]
    simp only [List.cons_append, List.getElem?_cons_succ, List.nil_append]
    rw [List.getElem?_append_left (by omega), h1]
  · rw [lineSymbols, List.append_assoc, show 3 + 2 * n = 2 * n + 1 + 1 + 1 by omega]
    simp only [List.cons_append, List.getElem?_cons_succ, List.nil_append]
    rw [List.getElem?_append_left (by omega), h2]

theorem lineSymbols_header (f : Frame) :
    (lineSymbols f)[0]? = some (.mark, .headerMark) ∧ (lineSymbols f)[1]? = some (.space, .headerSpace) :=
  ⟨rfl, rfl⟩

theorem lineSymbols_footer (f : Frame) :
    (lineSymbols f)[130]? = some (.mark, .short) ∧ (lineSymbols f)[131]? = some (.space, .gap) ∧
    (lineSymbols f)[132]? = some (.mark, .headerMark) := by
  have hl : ([(.mark, .headerMark), (.space, .headerSpace)] ++ f.bits.flatMap bitSymbols :
      List LineSymbol).length = 130 := by
    rw [List.length_append, flatMap_bitSymbols_length, f.bits_length]; rfl
  refine ⟨?_, ?_, ?_⟩ <;>
    rw [lineSymbols, List.getElem?_append_right (by omega), hl] <;> rfl

/-- The item of a modulated frame at an index (R193). -/
theorem modulateFrame_getElem? (f : Frame) (k : Nat) : (modulateFrame f)[k]? = (lineSymbols f)[k]?.map emit := by
  simp [modulateFrame]

/-! ## Demodulation -/

/-- An index at or past the end never matches (R192). -/
theorem itemMatches_of_le {w : Window} {e : Items} {k : Nat} (h : e.length ≤ k) (kd : Kind) (n : Nominal) :
    itemMatches w e k kd n = false := by
  simp [itemMatches, List.getElem?_eq_none h]

/-- A match is inside the capture (R192). -/
theorem lt_of_itemMatches {w : Window} {e : Items} {k : Nat} {kd : Kind} {n : Nominal}
    (h : itemMatches w e k kd n = true) : k < e.length := by
  by_contra hk
  rw [itemMatches_of_le (by omega)] at h
  cases h

/-- Cutting a capture short changes no match before the cut. -/
theorem itemMatches_take {w : Window} {e : Items} {k m : Nat} (h : k < m) (kd : Kind) (n : Nominal) :
    itemMatches w (e.take m) k kd n = itemMatches w e k kd n := by
  simp [itemMatches, h]

theorem expect_of_match {w : Window} {e : Items} {kd : Kind} {n : Nominal} {r : Reason} {k : Nat}
    (h : itemMatches w e k kd n = true) : expect w e kd n r k = .ok (k + 1) := by
  simp [expect, h]

theorem expect_of_mismatch {w : Window} {e : Items} {kd : Kind} {n : Nominal} {r : Reason} {k : Nat}
    (h : itemMatches w e k kd n = false) : expect w e kd n r k = .error ⟨r, k⟩ := by
  simp [expect, h]

/-- The four things that can happen to one data bit (R194). -/
theorem expectBit_cases (w : Window) (e : Items) (k : Nat) :
    (itemMatches w e k .mark .short = false ∧ expectBit w e k = .error ⟨.bit, k⟩) ∨
    (itemMatches w e k .mark .short = true ∧ itemMatches w e (k + 1) .space .one = true ∧
      expectBit w e k = .ok (true, k + 2)) ∨
    (itemMatches w e k .mark .short = true ∧ itemMatches w e (k + 1) .space .one = false ∧
      itemMatches w e (k + 1) .space .short = true ∧ expectBit w e k = .ok (false, k + 2)) ∨
    (itemMatches w e k .mark .short = true ∧ itemMatches w e (k + 1) .space .one = false ∧
      itemMatches w e (k + 1) .space .short = false ∧ expectBit w e k = .error ⟨.bit, k + 1⟩) := by
  unfold expectBit
  cases hm : itemMatches w e k .mark .short with
  | false => exact .inl ⟨rfl, by rw [expect_of_mismatch hm]; rfl⟩
  | true =>
    rw [expect_of_match hm]
    cases h1 : itemMatches w e (k + 1) .space .one with
    | true => exact .inr (.inl ⟨rfl, rfl, by simp [bind, Except.bind, h1, pure, Except.pure]⟩)
    | false =>
      cases h0 : itemMatches w e (k + 1) .space .short with
      | true => exact .inr (.inr (.inl ⟨rfl, rfl, rfl, by simp [bind, Except.bind, h1, h0, pure, Except.pure]⟩))
      | false => exact .inr (.inr (.inr ⟨rfl, rfl, rfl, by simp [bind, Except.bind, h1, h0]⟩))

/-- Data bit `n` after cursor `k` passes both its checks. -/
def bitPasses (w : Window) (e : Items) (k n : Nat) : Prop :=
  itemMatches w e (k + 2 * n) .mark .short = true ∧
  (itemMatches w e (k + 2 * n + 1) .space .one = true ∨ itemMatches w e (k + 2 * n + 1) .space .short = true)

/-- The bits that `c` data bits after cursor `k` spell. -/
def spelledBits (w : Window) (e : Items) (k c : Nat) : List Bool :=
  (List.range c).map fun n => itemMatches w e (k + 2 * n + 1) .space .one

theorem spelledBits_succ (w : Window) (e : Items) (k c : Nat) :
    spelledBits w e k (c + 1) = itemMatches w e (k + 1) .space .one :: spelledBits w e (k + 2) c := by
  simp only [spelledBits, List.range_succ_eq_map, List.map_cons, List.map_map, Nat.mul_zero, Nat.add_zero]
  congr 1
  refine List.map_congr_left fun n _ => ?_
  simp only [Function.comp, Nat.succ_eq_add_one, show k + 2 * (n + 1) + 1 = k + 2 + 2 * n + 1 by omega]

/-- What reading `c` data bits from cursor `k` can do (R194): all pass and spell their bits, or one fails first, at
its mark or at its space. -/
def bitsOutcome (w : Window) (e : Items) (c k : Nat) : Prop :=
  ((∀ n < c, bitPasses w e k n) ∧ expectBits w e c k = .ok (spelledBits w e k c, k + 2 * c)) ∨
  ∃ n < c, (∀ m < n, bitPasses w e k m) ∧
    ((itemMatches w e (k + 2 * n) .mark .short = false ∧ expectBits w e c k = .error ⟨.bit, k + 2 * n⟩) ∨
     (itemMatches w e (k + 2 * n) .mark .short = true ∧
      itemMatches w e (k + 2 * n + 1) .space .one = false ∧ itemMatches w e (k + 2 * n + 1) .space .short = false ∧
      expectBits w e c k = .error ⟨.bit, k + 2 * n + 1⟩))

theorem expectBits_cases (w : Window) (e : Items) (c k : Nat) : bitsOutcome w e c k := by
  induction c generalizing k with
  | zero => exact .inl ⟨fun _ h => absurd h (by omega), rfl⟩
  | succ c ih =>
    have shift : ∀ n, bitPasses w e (k + 2) n → bitPasses w e k (n + 1) := fun n h => by
      simpa only [bitPasses, show k + 2 * (n + 1) = k + 2 + 2 * n by omega] using h
    have go : ∀ b, itemMatches w e (k + 1) .space .one = b → bitPasses w e k 0 →
        expectBit w e k = .ok (b, k + 2) → bitsOutcome w e (c + 1) k := fun b hb h0 hok => by
      have all : ∀ n, (∀ m < n, bitPasses w e (k + 2) m) → ∀ m < n + 1, bitPasses w e k m := fun n h m hm => by
        cases m with
        | zero => exact h0
        | succ m => exact shift m (h m (by omega))
      have unf : expectBits w e (c + 1) k =
          (expectBits w e c (k + 2)).bind fun p => .ok (b :: p.1, p.2) := by
        simp only [expectBits, hok]; rfl
      rcases ih (k + 2) with ⟨h, hr⟩ | ⟨n, hn, h, hr⟩
      · refine .inl ⟨all c h, ?_⟩
        rw [unf, hr, spelledBits_succ, hb]
        simp only [Except.bind, show k + 2 + 2 * c = k + 2 * (c + 1) by omega]
      · refine .inr ⟨n + 1, by omega, all n h, ?_⟩
        rw [show k + 2 * (n + 1) = k + 2 + 2 * n by omega]
        rcases hr with ⟨hm, hr⟩ | ⟨hm, h1, h2, hr⟩
        · exact .inl ⟨hm, by rw [unf, hr]; rfl⟩
        · exact .inr ⟨hm, h1, h2, by rw [unf, hr]; rfl⟩
    rcases expectBit_cases w e k with ⟨hm, hr⟩ | ⟨hm, h1, hr⟩ | ⟨hm, h1, h0, hr⟩ | ⟨hm, h1, h0, hr⟩
    · exact .inr ⟨0, by omega, fun _ h => absurd h (by omega), .inl ⟨hm, by simp only [expectBits, hr]; rfl⟩⟩
    · exact go true h1 ⟨hm, .inl h1⟩ hr
    · exact go false h1 ⟨hm, .inr h0⟩ hr
    · exact .inr ⟨0, by omega, fun _ h => absurd h (by omega), .inr ⟨hm, h1, h0, by simp only [expectBits, hr]; rfl⟩⟩

/-- The header and all 64 data bits pass their checks. -/
def dataPasses (w : Window) (e : Items) : Prop :=
  itemMatches w e 0 .mark .headerMark = true ∧ itemMatches w e 1 .space .headerSpace = true ∧
  ∀ n < 64, bitPasses w e 2 n

/-- The frame the data spaces spell. -/
def readFrameOf (w : Window) (e : Items) : Frame := Frame.ofBits (spelledBits w e 2 64)

/-- What a demodulation can do (R194), first failing check first (R233). -/
theorem demod_cases (w : Window) (e : Items) :
    (itemMatches w e 0 .mark .headerMark = false ∧ demod w e = .error ⟨.header, 0⟩) ∨
    (itemMatches w e 0 .mark .headerMark = true ∧ itemMatches w e 1 .space .headerSpace = false ∧
      demod w e = .error ⟨.header, 1⟩) ∨
    (itemMatches w e 0 .mark .headerMark = true ∧ itemMatches w e 1 .space .headerSpace = true ∧
      ∃ n < 64, (∀ m < n, bitPasses w e 2 m) ∧
        ((itemMatches w e (2 + 2 * n) .mark .short = false ∧ demod w e = .error ⟨.bit, 2 + 2 * n⟩) ∨
         (itemMatches w e (2 + 2 * n) .mark .short = true ∧ itemMatches w e (2 + 2 * n + 1) .space .one = false ∧
          itemMatches w e (2 + 2 * n + 1) .space .short = false ∧ demod w e = .error ⟨.bit, 2 + 2 * n + 1⟩))) ∨
    (dataPasses w e ∧ hi (readFrameOf w e).b7 ≠ cs (readFrameOf w e) ∧ demod w e = .error ⟨.checksum, 130⟩) ∨
    (dataPasses w e ∧ hi (readFrameOf w e).b7 = cs (readFrameOf w e) ∧
      ((itemMatches w e 130 .mark .short = false ∧ demod w e = .error ⟨.footer, 130⟩) ∨
       (itemMatches w e 130 .mark .short = true ∧ itemMatches w e 131 .space .gap = false ∧
        demod w e = .error ⟨.footer, 131⟩) ∨
       (itemMatches w e 130 .mark .short = true ∧ itemMatches w e 131 .space .gap = true ∧
        itemMatches w e 132 .mark .headerMark = false ∧ demod w e = .error ⟨.footer, 132⟩) ∨
       (itemMatches w e 130 .mark .short = true ∧ itemMatches w e 131 .space .gap = true ∧
        itemMatches w e 132 .mark .headerMark = true ∧ demod w e = .ok (readFrameOf w e, 133)))) := by
  unfold demod
  cases h0 : itemMatches w e 0 .mark .headerMark with
  | false => exact .inl ⟨rfl, by rw [expect_of_mismatch h0]; rfl⟩
  | true =>
  rw [expect_of_match h0]
  refine .inr ?_
  cases h1 : itemMatches w e 1 .space .headerSpace with
  | false => exact .inl ⟨rfl, rfl, by simp only [bind, Except.bind]; rw [expect_of_mismatch h1]⟩
  | true =>
  refine .inr ?_
  simp only [bind, Except.bind, Nat.zero_add]
  rw [expect_of_match h1]
  rcases expectBits_cases w e 64 2 with ⟨hb, hr⟩ | ⟨n, hn, hb, hr⟩
  · refine .inr ?_
    have hd : dataPasses w e := ⟨h0, h1, hb⟩
    simp only [Nat.reduceAdd, hr, show Frame.ofBits (spelledBits w e 2 64) = readFrameOf w e from rfl]
    by_cases hc : hi (readFrameOf w e).b7 = cs (readFrameOf w e)
    · refine .inr ⟨hd, hc, ?_⟩
      simp only [hc, ne_eq, not_true_eq_false, if_false, Nat.reduceMul, Nat.reduceAdd]
      cases h2 : itemMatches w e 130 .mark .short with
      | false => exact .inl ⟨rfl, by rw [expect_of_mismatch h2]⟩
      | true =>
      rw [expect_of_match h2]
      cases h3 : itemMatches w e 131 .space .gap with
      | false => exact .inr (.inl ⟨rfl, rfl, by simp only [Nat.reduceAdd]; rw [expect_of_mismatch h3]⟩)
      | true =>
      simp only [Nat.reduceAdd]
      rw [expect_of_match h3]
      cases h4 : itemMatches w e 132 .mark .headerMark with
      | false => exact .inr (.inr (.inl ⟨trivial, trivial, rfl, by simp only [Nat.reduceAdd]; rw [expect_of_mismatch h4]⟩))
      | true => exact .inr (.inr (.inr ⟨trivial, trivial, rfl, by simp only [Nat.reduceAdd]; rw [expect_of_match h4]; rfl⟩))
    · exact .inl ⟨hd, hc, by simp only [hc, ne_eq, not_false_eq_true, if_true, Nat.reduceMul, Nat.reduceAdd]⟩
  · refine .inl ⟨trivial, trivial, n, hn, hb, ?_⟩
    rcases hr with ⟨hm, hr⟩ | ⟨hm, ha, hz, hr⟩
    · exact .inl ⟨hm, by simp only [Nat.reduceAdd, hr]⟩
    · exact .inr ⟨hm, ha, hz, by simp only [Nat.reduceAdd, hr]⟩

end Sys2Proof.Machine
end

