-- ==== Sys2Proof/Laws/PerInstr.lean ====
section
/-! SUPPORT. Facts stated per instruction, over its syntax. Family `EncodeWellFormed`: the encoding of a command is a
well-formed command (R98 to R101), so the host can issue every command. -/

namespace Sys2Proof.Laws.EncodeWellFormed

def Statement (i : Instr) : Prop := (encode i).wellFormed = true

theorem u8_admits (b : Byte) : OperandSort.u8.admits (ofU8 b) = true := by
  have h : (0 : Int) ≤ b.toNat ∧ (b.toNat : Int) < 256 := by have := b.isLt; omega
  rw [OperandSort.admits, ofU8, decide_eq_true h.1, decide_eq_true h.2]; rfl

theorem u1_admits (v : Bool) : OperandSort.u1.admits (ofU1 v) = true := by
  cases v <;> rfl

theorem int_admits (v : Int) : OperandSort.int.admits v = true := rfl

theorem frameInit : Statement .frameInit := rfl
theorem frameLoad (b0 b1 b2 b3 b4 b5 b6 b7 : Byte) : Statement (.frameLoad b0 b1 b2 b3 b4 b5 b6 b7) := by
  show admitsAll [.u8, .u8, .u8, .u8, .u8, .u8, .u8, .u8]
    [ofU8 b0, ofU8 b1, ofU8 b2, ofU8 b3, ofU8 b4, ofU8 b5, ofU8 b6, ofU8 b7] = true
  simp [admitsAll, u8_admits]
theorem frameRead : Statement .frameRead := rfl
theorem setMode (code : Byte) : Statement (.setMode code) := by
  show admitsAll [.u8] [ofU8 code] = true
  simp [admitsAll, u8_admits]
theorem getMode : Statement .getMode := rfl
theorem setFan (code : Byte) : Statement (.setFan code) := by
  show admitsAll [.u8] [ofU8 code] = true
  simp [admitsAll, u8_admits]
theorem getFan : Statement .getFan := rfl
theorem setTemp (a : Int) : Statement (.setTemp a) := rfl
theorem getTemp : Statement .getTemp := rfl
theorem setTime (h m : Int) : Statement (.setTime h m) := rfl
theorem getTime : Statement .getTime := rfl
theorem setOnTimer (h : Int) (hf act : Bool) : Statement (.setOnTimer h hf act) := by
  show admitsAll [.int, .u1, .u1] [h, ofU1 hf, ofU1 act] = true
  simp [admitsAll, int_admits, u1_admits]
theorem getOnTimer : Statement .getOnTimer := rfl
theorem setOffTimer (h : Int) (hf act : Bool) : Statement (.setOffTimer h hf act) := by
  show admitsAll [.int, .u1, .u1] [h, ofU1 hf, ofU1 act] = true
  simp [admitsAll, int_admits, u1_admits]
theorem getOffTimer : Statement .getOffTimer := rfl
theorem setSwing (v : Bool) : Statement (.setSwing v) := by
  show admitsAll [.u1] [ofU1 v] = true
  simp [admitsAll, u1_admits]
theorem getSwing : Statement .getSwing := rfl
theorem setSleep (v : Bool) : Statement (.setSleep v) := by
  show admitsAll [.u1] [ofU1 v] = true
  simp [admitsAll, u1_admits]
theorem getSleep : Statement .getSleep := rfl
theorem setPowerToggle (v : Bool) : Statement (.setPowerToggle v) := by
  show admitsAll [.u1] [ofU1 v] = true
  simp [admitsAll, u1_admits]
theorem getPowerToggle : Statement .getPowerToggle := rfl
theorem checksum : Statement .checksum := rfl
theorem finalize : Statement .finalize := rfl
theorem isValid : Statement .isValid := rfl
theorem encode (ls : LogicalState) : Statement (.encode ls) := by
  show admitsAll recordSorts (recordFields ls) = true
  simp [admitsAll, recordSorts, recordFields, u8_admits, u1_admits, int_admits]
theorem decode : Statement .decode := rfl
theorem modulate : Statement .modulate := rfl
theorem demodulate (e : Items) : Statement (.demodulate e) := rfl
theorem receive (e : Items) : Statement (.receive e) := rfl
theorem statusRead : Statement .statusRead := rfl

end Sys2Proof.Laws.EncodeWellFormed
end

