-- ==== Sys2Proof/Laws/Run.lean ====
section
/-! SUPPORT. The model's run, step by step. -/

namespace Sys2Proof.Machine

/-- A step on a command that decodes is the guarded command. -/
theorem step_command {s : State} {c : RawCommand} {rest : List Input} {i : Instr}
    (hp : s.pending = .command c :: rest) (hd : decode c = .ok i) : step s = guardedExec i (s.setPending rest) := by
  simp [step, takeNext, takeInput, runCommand, hp, hd]

/-- What one advance can do: the run had ended and stays; or it takes a step, which completes, faults or is
refused. -/
theorem advanceRun_cases (r : ModelRun) :
    (r.ended ≠ none ∧ advanceRun r = r) ∨
    (r.ended = none ∧ ∃ t, step r.state = .next t ∧ advanceRun r = ⟨t, none⟩) ∨
    (r.ended = none ∧ ∃ f, step r.state = .fault f ∧ advanceRun r = ⟨r.state, some (.fault f)⟩) ∨
    (r.ended = none ∧ ∃ x, step r.state = .refused x ∧ advanceRun r = ⟨r.state, some (.refused x)⟩) := by
  obtain ⟨s, e⟩ := r
  cases e with
  | some e => exact .inl ⟨by simp, rfl⟩
  | none =>
    cases h : step s with
    | next t => exact .inr (.inl ⟨rfl, t, rfl, by simp [advanceRun, h]⟩)
    | fault f => exact .inr (.inr (.inl ⟨rfl, f, rfl, by simp [advanceRun, h]⟩))
    | refused x => exact .inr (.inr (.inr ⟨rfl, x, rfl, by simp [advanceRun, h]⟩))

/-- A run that has ended is at its end for good. -/
theorem modelRun_ended {s : State} {n : Nat} (h : (modelRun s n).ended ≠ none) :
    ∀ m, n ≤ m → modelRun s m = modelRun s n := by
  intro m hm
  induction m, hm using Nat.le_induction with
  | base => rfl
  | succ m _ ih =>
    show advanceRun (modelRun s m) = _
    rw [ih]
    rcases advanceRun_cases (modelRun s n) with ⟨-, h'⟩ | ⟨h', -⟩ | ⟨h', -⟩ | ⟨h', -⟩
    · exact h'
    all_goals exact absurd h' h

/-- One more step of a run, at its end. -/
theorem run_snoc (M : Host.Core) {k : Nat} {s t u : M.State} (h : M.run k s = .next t) (hs : M.step t = .next u) :
    M.run (k + 1) s = .next u := by
  induction k generalizing s with
  | zero => cases h; simp [Host.Core.run, hs]
  | succ k ih =>
    rw [Host.Core.run] at h ⊢
    split at h
    · exact ih h
    · cases h
    · cases h

/-- A run that comes to a step that faults ends with that fault, however many steps are asked for. -/
theorem run_fault (M : Host.Core) {k n : Nat} {s t : M.State} {f : M.Fault} (h : M.run k s = .next t)
    (hf : M.step t = .fault f) (hn : k < n) : M.run n s = .fault f := by
  induction k generalizing s n with
  | zero =>
    obtain ⟨n, rfl⟩ := Nat.exists_eq_succ_of_ne_zero (by omega : n ≠ 0)
    cases h
    simp [Host.Core.run, hf]
  | succ k ih =>
    obtain ⟨n, rfl⟩ := Nat.exists_eq_succ_of_ne_zero (by omega : n ≠ 0)
    rw [Host.Core.run] at h ⊢
    split at h
    · exact ih h (by omega)
    · cases h
    · cases h

end Sys2Proof.Machine
end

