-- ==== Sys2Proof/Laws/Safety.lean ====
section
/-! SUPPORT. The terms of Sys2Proof/Safety.lean against the operations they speak of. -/

namespace Sys2Proof.Machine

/-! ## Frames that differ at some indices -/

theorem sameBytesBut_of {f g : Frame} {stored : List Nat}
    (h : ∀ a < 8, a ∉ stored → g.byte? a = f.byte? a) : sameBytesBut f g stored := by
  intro a ha
  by_cases h8 : a < 8
  · exact h a h8 ha
  · rw [Frame.byte?_of_le _ (by omega), Frame.byte?_of_le _ (by omega)]

/-- A write of one byte keeps every other index. -/
theorem sameBytesBut_setByte (f : Frame) {a : Nat} (v : Byte) (ha : a < 8) : sameBytesBut f (f.setByte a v) [a] :=
  fun c hc => by rw [Frame.byte?_setByte _ _ _ _ ha, if_neg (by simpa using hc)]

/-! ## The checks of the items, by index -/

theorem spelledFrame_eq (w : Window) (e : Items) : spelledFrame w e = readFrameOf w e := by
  simp only [spelledFrame, readFrameOf, spelledBits, show ∀ n, 2 + 2 * n + 1 = 3 + 2 * n from fun n => by omega]

theorem phaseAt_mark {n : Nat} (h : n < 64) : phaseAt (2 + 2 * n) = .data n .mark := by
  rw [phaseAt, if_neg (by omega), if_pos (by omega), if_pos (by omega)]
  congr 1
  omega

theorem phaseAt_space {n : Nat} (h : n < 64) : phaseAt (2 + 2 * n + 1) = .data n .space := by
  rw [phaseAt, if_neg (by omega), if_pos (by omega), if_neg (by omega)]
  congr 1
  omega

/-- A data bit passes when its two items do. -/
theorem bitPasses_iff (w : Window) (e : Items) {n : Nat} (h : n < 64) :
    bitPasses w e 2 n ↔ itemOk w e (2 + 2 * n) ∧ itemOk w e (2 + 2 * n + 1) := by
  rw [itemOk, phaseAt_mark h, itemOk, phaseAt_space h]
  rfl

/-- A property of the header items and of the items of `m` data bits holds of every item before their end. -/
theorem items_before {P : Nat → Prop} {m : Nat} (h0 : P 0) (h1 : P 1)
    (hd : ∀ n < m, P (2 + 2 * n) ∧ P (2 + 2 * n + 1)) : ∀ k < 2 + 2 * m, P k := by
  intro k hk
  rcases Nat.lt_or_ge k 2 with h | h
  · interval_cases k <;> assumption
  · have := hd ((k - 2) / 2) (by omega)
    rcases Nat.mod_two_eq_zero_or_one k with h2 | h2
    · rw [show k = 2 + 2 * ((k - 2) / 2) by omega]; exact this.1
    · rw [show k = 2 + 2 * ((k - 2) / 2) + 1 by omega]; exact this.2

/-- The header and the data pass exactly when the first 130 items do. -/
theorem dataPasses_iff (w : Window) (e : Items) : dataPasses w e ↔ ∀ k < 130, itemOk w e k := by
  constructor
  · intro ⟨h0, h1, hb⟩
    exact items_before (m := 64) h0 h1 fun n hn => (bitPasses_iff w e hn).1 (hb n hn)
  · intro h
    exact ⟨h 0 (by omega), h 1 (by omega), fun n hn => (bitPasses_iff w e hn).2 ⟨h _ (by omega), h _ (by omega)⟩⟩

end Sys2Proof.Machine
end

