-- ==== Sys2Proof/Machine/Assembler.lean ====
section
/-! DEFINITION. The assembler syntax of R103 (spec/30_encoding.md), with the pseudo-instructions of R104: one line of
text to the commands it stands for. It belongs to the host's side of the command port and no meaning uses it (log 22). An
operand that is ill-typed is carried through and refused by the decoder (R101); a text of no form of R103 gives
none. -/

namespace Sys2Proof.Machine

/-! ## Pieces of text -/

def isBlank (c : Char) : Bool := c == ' ' || c == '\t'

def trimLeft (t : List Char) : List Char := t.dropWhile isBlank

def trim (t : List Char) : List Char := (trimLeft (trimLeft t).reverse).reverse

/-- The text before the first `;` (R103). -/
def dropComment (t : List Char) : List Char := t.takeWhile (· != ';')

/-- The pieces of a text between the characters that `sep` picks out. -/
def splitOn (sep : Char → Bool) : List Char → List (List Char)
  | [] => [[]]
  | c :: rest =>
    match splitOn sep rest with
    | [] => [[]]
    | p :: ps => if sep c then [] :: p :: ps else (c :: p) :: ps

/-- The sixteen digits of the spec's hexadecimal numbers, each at the place of its value. -/
def digitRow : List Char := "0123456789ABCDEF".toList

/-- The value of a digit is its place in the row; a small letter counts as its capital (log 22). -/
def digitValue (c : Char) : Option Nat := digitRow.idxOf? c.toUpper

/-- The digits of a number in a base, after those that made `acc`. -/
def digits (base acc : Nat) : List Char → Option Nat
  | [] => some acc
  | c :: rest =>
    match digitValue c with
    | some d => if d < base then digits base (base * acc + d) rest else none
    | none => none

/-- A natural number: decimal, or hexadecimal after `0x`. -/
def readNat : List Char → Option Nat
  | [] => none
  | ['0', 'x'] => none
  | '0' :: 'x' :: rest => digits 16 0 rest
  | t => digits 10 0 t

/-- An integer: a natural number, or one after `-`. -/
def readInt : List Char → Option Int
  | '-' :: rest => (readNat rest).map fun n => -(n : Int)
  | t => (readNat t).map fun n => (n : Int)

/-! ## Operands -/

/-- The mode names of R89. -/
def modeWords : List (List Char × Nibble) :=
  [("DRY".toList, modeDry), ("COOL".toList, modeCool), ("FAN".toList, modeFan)]

/-- The fan names of R90. -/
def fanWords : List (List Char × Nibble) :=
  [("AUTO".toList, fanAuto), ("TURBO".toList, fanTurbo), ("SPEED_3".toList, fanSpeed3),
   ("SPEED_2".toList, fanSpeed2), ("SPEED_1".toList, fanSpeed1), ("QUIET".toList, fanQuiet)]

/-- A number, or a name from a list of names (R103). -/
def readCode (words : List (List Char × Nibble)) (t : List Char) : Option Int :=
  match words.lookup t with
  | some n => some (n.toNat : Int)
  | none => readInt t

/-- The values of a list that all have one. -/
def allOf {α β : Type} (g : α → Option β) : List α → Option (List β)
  | [] => some []
  | x :: xs =>
    match g x, allOf g xs with
    | some y, some ys => some (y :: ys)
    | _, _ => none

/-- Operands separated by commas; an empty text has none. -/
def operandTexts (t : List Char) : List (List Char) :=
  if (trim t).isEmpty then [] else (splitOn (· == ',') t).map trim

/-- Numbers as operands. -/
def numberOperands (t : List Char) : Option (List Operand) :=
  (allOf readInt (operandTexts t)).map (·.map Operand.num)

/-- One code as an operand. -/
def codeOperand (words : List (List Char × Nibble)) (t : List Char) : Option (List Operand) :=
  (readCode words (trim t)).map fun v => [Operand.num v]

/-- The field names of a `LogicalState`, in the order of R99, each with the names its value may have. -/
def recordWords : List (List Char × List (List Char × Nibble)) :=
  [("mode".toList, modeWords), ("fan".toList, fanWords), ("temp".toList, []), ("hour".toList, []),
   ("minute".toList, []), ("on_h".toList, []), ("on_half".toList, []), ("on_act".toList, []),
   ("off_h".toList, []), ("off_half".toList, []), ("off_act".toList, []), ("swing".toList, []),
   ("sleep".toList, []), ("power_toggle".toList, [])]

/-- One `name=value` of a record. -/
def readField (t : List Char) : Option (List Char × Int) :=
  match splitOn (· == '=') t with
  | [name, value] =>
    match recordWords.lookup (trim name) with
    | some words => (readCode words (trim value)).map fun v => (trim name, v)
    | none => none
  | _ => none

/-- No name stands twice. -/
def namesOnce : List (List Char × Int) → Bool
  | [] => true
  | (n, _) :: rest => !(rest.map (·.1)).contains n && namesOnce rest

/-- A record between braces (characters 123 and 125); an omitted field is 0 (R103). -/
def recordOperand (t : List Char) : Option (List Operand) :=
  match trim t with
  | c :: rest =>
    match rest.reverse with
    | d :: inner =>
      if c = Char.ofNat 123 ∧ d = Char.ofNat 125 then
        match allOf readField (operandTexts inner.reverse) with
        | some fields =>
          if namesOnce fields then
            some [Operand.record (recordWords.map fun w => (fields.lookup w.1).getD 0)]
          else none
        | none => none
      else none
    | [] => none
  | [] => none

/-- One item: `M` or `S` and a duration (R103). -/
def readItem : List Char → Option Item
  | 'M' :: t => (readNat t).map fun d => ⟨.mark, d⟩
  | 'S' :: t => (readNat t).map fun d => ⟨.space, d⟩
  | _ => none

/-- A list of items separated by blanks. -/
def itemsOperand (t : List Char) : Option (List Operand) :=
  (allOf readItem ((splitOn isBlank t).filter fun p => !p.isEmpty)).map fun e => [Operand.items e]

/-! ## Lines -/

/-- The mnemonics with their selectors (R100). -/
def mnemonics : List (List Char × Byte) :=
  [("FRAME_INIT".toList, 0x01), ("FRAME_LOAD".toList, 0x02), ("FRAME_READ".toList, 0x03),
   ("SET_MODE".toList, 0x10), ("GET_MODE".toList, 0x11), ("SET_FAN".toList, 0x12), ("GET_FAN".toList, 0x13),
   ("SET_TEMP".toList, 0x14), ("GET_TEMP".toList, 0x15), ("SET_TIME".toList, 0x16), ("GET_TIME".toList, 0x17),
   ("SET_ON_TIMER".toList, 0x18), ("GET_ON_TIMER".toList, 0x19),
   ("SET_OFF_TIMER".toList, 0x1A), ("GET_OFF_TIMER".toList, 0x1B)] ++
  [("SET_SWING".toList, 0x1C), ("GET_SWING".toList, 0x1D), ("SET_SLEEP".toList, 0x1E), ("GET_SLEEP".toList, 0x1F),
   ("SET_POWER_TOGGLE".toList, 0x20), ("GET_POWER_TOGGLE".toList, 0x21),
   ("CHECKSUM".toList, 0x30), ("FINALIZE".toList, 0x31), ("IS_VALID".toList, 0x32),
   ("ENCODE".toList, 0x40), ("DECODE".toList, 0x41),
   ("MODULATE".toList, 0x50), ("DEMODULATE".toList, 0x51), ("RECEIVE".toList, 0x52), ("STATUS_READ".toList, 0x53)]

/-- The operands of a mnemonic, read as its format has them (R98, R103). -/
def operandsFor (opc : Byte) (t : List Char) : Option (List Operand) :=
  match formatOf opc with
  | some .st => recordOperand t
  | some .ev => itemsOperand t
  | some .c8 => codeOperand (if opc = 0x10 then modeWords else fanWords) t
  | some _ => numberOperands t
  | none => none

/-- One line of R103: a mnemonic and its operands, or a pseudo-instruction (R104). -/
def assembleLine (line : String) : Option (List RawCommand) :=
  let t := trim (dropComment line.toList)
  let name := t.takeWhile fun c => !isBlank c
  let rest := t.dropWhile fun c => !isBlank c
  if t.isEmpty then some []
  else if name = "SEND".toList then (recordOperand rest).map fun ops => [⟨0x40, ops⟩, ⟨0x50, []⟩]
  else if name = "SET_CLOCK".toList then (numberOperands rest).map fun ops => [⟨0x16, ops⟩]
  else
    match mnemonics.lookup name with
    | some opc => (operandsFor opc rest).map fun ops => [⟨opc, ops⟩]
    | none => none

/-- A program: the commands of its lines, in order (R34, R103). -/
def assemble (lines : List String) : Option (List RawCommand) := (allOf assembleLine lines).map List.flatten

end Sys2Proof.Machine
end

