-- ==== Sys2Proof/Tests/Slice0.lean ====
section
/-! SUPPORT. Tests. Every expected result is transcribed from the spec: the words from R98 to R100 of
spec/30_encoding.md, the results from spec/95_test_vectors.md (the row is named), or a hand calculation from the rule
named. The witnesses at the end show, for every statement with hypotheses, a state and operands that meet them. -/

namespace Sys2Proof.Tests

open Sys2Proof.Machine

/-! ## Helpers -/

/-- The reset state with a frame loaded. -/
def loaded (b0 b1 b2 b3 b4 b5 b6 b7 : Byte) : State := State.reset.setFrame ⟨b0, b1, b2, b3, b4, b5, b6, b7⟩

/-- The next state, if there is one. -/
def after : Host.Outcome State Fault Refusal → Option State
  | .next t => some t
  | .fault _ => none
  | .refused _ => none

/-- The fault, if there is one. -/
def faultOf : Host.Outcome State Fault Refusal → Option Fault
  | .fault r => some r
  | .next _ => none
  | .refused _ => none

/-- The refusal, if there is one. -/
def refusalOf : Host.Outcome State Fault Refusal → Option Refusal
  | .refused r => some r
  | .next _ => none
  | .fault _ => none

/-- FRAME after a command. -/
def frameAfter (i : Instr) (s : State) : Option Frame := (after (exec i s)).map (·.frame)

/-- What a command answers. -/
def answerOf (i : Instr) (s : State) : Option Result := (after (exec i s)).map (·.result)

/-- RX_STATUS after a command. -/
def statusAfter (i : Instr) (s : State) : Option Word16 := (after (exec i s)).map (·.rxStatus)

/-- Scenario A of spec/95_test_vectors.md. -/
def frameA : Frame := ⟨0x16, 0x12, 0x00, 0x00, 0x00, 0x00, 0x24, 0x00⟩

/-- The frame of vector D21: scenario A with a wrong checksum nibble. -/
def frameBadSum : Frame := ⟨0x16, 0x12, 0x00, 0x00, 0x00, 0x00, 0x24, 0x10⟩

/-- The frame of vector D24: the checksum right, byte 0 wrong. -/
def frameBadHeader : Frame := ⟨0x17, 0x12, 0x00, 0x00, 0x00, 0x00, 0x24, 0x10⟩

def stateA : State := State.reset.setFrame frameA

/-- The record of ENCODE E1: mode=COOL, fan=AUTO, temp=24. -/
def logicalA : LogicalState := ⟨0x02, 0x01, 24, 0, 0, 0, false, false, 0, false, false, false, false, false⟩

/-- The record of ENCODE E2. -/
def logicalE2 : LogicalState := ⟨0x01, 0x08, 30, 23, 59, 7, true, true, 22, false, true, true, true, true⟩

/-- The record of ENCODE E4. -/
def logicalE4 : LogicalState := ⟨0x07, 0x05, 40, 24, 0, 25, true, true, 9, false, true, false, false, false⟩

/-! ## WellFormed refuses one ill-formed command per check, and the decoder names each -/

theorem test_selector_unassigned : (RawCommand.wellFormed ⟨0x22, []⟩) = false ∧
    decode ⟨0x22, []⟩ = .error .unassignedSelector := by decide
theorem test_operand_missing : (RawCommand.wellFormed ⟨0x14, []⟩) = false ∧
    decode ⟨0x14, []⟩ = .error .wrongOperands := by decide
theorem test_operand_too_many : (RawCommand.wellFormed ⟨0x01, [.num 0]⟩) = false ∧
    decode ⟨0x01, [.num 0]⟩ = .error .wrongOperands := by decide
theorem test_operand_wrong_sort : (RawCommand.wellFormed ⟨0x10, [.items []]⟩) = false ∧
    decode ⟨0x10, [.items []]⟩ = .error .wrongOperands := by decide
/-- Section 2.12: SET_SWING 2. -/
theorem test_u1_out_of_range : (RawCommand.wellFormed ⟨0x1C, [.num 2]⟩) = false ∧
    decode ⟨0x1C, [.num 2]⟩ = .error .u1OutOfRange := by decide
/-- Section 2.12: SET_MODE 0x1FF. -/
theorem test_u8_out_of_range : (RawCommand.wellFormed ⟨0x10, [.num 0x1FF]⟩) = false ∧
    decode ⟨0x10, [.num 0x1FF]⟩ = .error .u8OutOfRange := by decide
theorem test_u8_negative : (RawCommand.wellFormed ⟨0x10, [.num (-1)]⟩) = false ∧
    decode ⟨0x10, [.num (-1)]⟩ = .error .u8OutOfRange := by decide
theorem test_record_too_short : (RawCommand.wellFormed ⟨0x40, [.record [1, 1]]⟩) = false ∧
    decode ⟨0x40, [.record [1, 1]]⟩ = .error .wrongOperands := by decide
theorem test_record_bit_out_of_range :
    (RawCommand.wellFormed ⟨0x40, [.record [1, 1, 24, 0, 0, 0, 2, 0, 0, 0, 0, 0, 0, 0]]⟩) = false ∧
    decode ⟨0x40, [.record [1, 1, 24, 0, 0, 0, 2, 0, 0, 0, 0, 0, 0, 0]]⟩ = .error .u1OutOfRange := by decide
/-- Section 2.12: SET_MODE 0xFF is accepted. -/
theorem test_unrecognized_code_is_well_formed : (RawCommand.wellFormed ⟨0x10, [.num 0xFF]⟩) = true := by decide

/-! ## Decoding, from the selector map and the formats, written out in bits -/

theorem test_decode_frame_access :
    decode ⟨0b00000001, []⟩ = .ok .frameInit ∧
    decode ⟨0b00000010, [.num 0x16, .num 0x12, .num 1, .num 2, .num 3, .num 4, .num 0x24, .num 0xFF]⟩ =
      .ok (.frameLoad 0x16 0x12 1 2 3 4 0x24 0xFF) ∧
    decode ⟨0b00000011, []⟩ = .ok .frameRead := by decide
theorem test_decode_mode_and_fan :
    decode ⟨0b00010000, [.num 0x02]⟩ = .ok (.setMode 0x02) ∧ decode ⟨0b00010001, []⟩ = .ok .getMode ∧
    decode ⟨0b00010010, [.num 0x09]⟩ = .ok (.setFan 0x09) ∧ decode ⟨0b00010011, []⟩ = .ok .getFan := by decide
theorem test_decode_temp_and_time :
    decode ⟨0b00010100, [.num (-5)]⟩ = .ok (.setTemp (-5)) ∧ decode ⟨0b00010101, []⟩ = .ok .getTemp ∧
    decode ⟨0b00010110, [.num 12, .num 34]⟩ = .ok (.setTime 12 34) ∧
    decode ⟨0b00010111, []⟩ = .ok .getTime := by decide
theorem test_decode_timers :
    decode ⟨0b00011000, [.num 7, .num 1, .num 0]⟩ = .ok (.setOnTimer 7 true false) ∧
    decode ⟨0b00011001, []⟩ = .ok .getOnTimer ∧
    decode ⟨0b00011010, [.num 8, .num 0, .num 1]⟩ = .ok (.setOffTimer 8 false true) ∧
    decode ⟨0b00011011, []⟩ = .ok .getOffTimer := by decide
theorem test_decode_flags :
    decode ⟨0b00011100, [.num 1]⟩ = .ok (.setSwing true) ∧ decode ⟨0b00011101, []⟩ = .ok .getSwing ∧
    decode ⟨0b00011110, [.num 0]⟩ = .ok (.setSleep false) ∧ decode ⟨0b00011111, []⟩ = .ok .getSleep ∧
    decode ⟨0b00100000, [.num 1]⟩ = .ok (.setPowerToggle true) ∧
    decode ⟨0b00100001, []⟩ = .ok .getPowerToggle := by decide
theorem test_decode_checksum :
    decode ⟨0b00110000, []⟩ = .ok .checksum ∧ decode ⟨0b00110001, []⟩ = .ok .finalize ∧
    decode ⟨0b00110010, []⟩ = .ok .isValid := by decide
/-- The record's fields in the order of R99, each with a value of its own. -/
theorem test_decode_composite :
    decode ⟨0b01000000, [.record [1, 8, 30, 23, 59, 7, 1, 0, 22, 0, 1, 1, 0, 1]]⟩ =
      .ok (.encode ⟨0x01, 0x08, 30, 23, 59, 7, true, false, 22, false, true, true, false, true⟩) ∧
    decode ⟨0b01000001, []⟩ = .ok .decode := by decide
theorem test_decode_line :
    decode ⟨0b01010000, []⟩ = .ok .modulate ∧
    decode ⟨0b01010001, [.items [⟨.mark, 4652⟩, ⟨.space, 2408⟩]]⟩ = .ok (.demodulate [⟨.mark, 4652⟩, ⟨.space, 2408⟩]) ∧
    decode ⟨0b01010010, [.items [⟨.mark, 4652⟩]]⟩ = .ok (.receive [⟨.mark, 4652⟩]) ∧
    decode ⟨0b01010011, []⟩ = .ok .statusRead := by decide

/-- A word of the opcode table decodes with zero operands (log 5); a reserved selector decodes to nothing (R101). -/
theorem test_table_words :
    decodeTableWord 8 0x18 = some (.setOnTimer 0 false false) ∧ decodeTableWord 8 0x51 = some (.demodulate []) ∧
    decodeTableWord 8 0x54 = none ∧ decodeTableWord 8 0x101 = none := by decide
/-- The word placed is the next command taken (log 5). -/
theorem test_fetch_word_runs_next :
    after (step (State.reset.withFetchWord 8 0x01)) = after (exec .frameInit State.reset) := by decide

/-! ## Commands; the rows of section 2 of spec/95_test_vectors.md -/

/-- V1, V5. -/
theorem test_unwritten_frame_faults :
    faultOf (guardedExec .frameRead State.reset) = some .frameUnwritten ∧
    faultOf (guardedExec (.setSwing true) State.reset) = some .frameUnwritten ∧
    faultOf (step (State.reset.withFetchWord 8 0x03)) = some .frameUnwritten := by decide
/-- V1 as a run: it ends at the command with the state unchanged, and the fault is kept; a written frame goes
through (FrameUnwrittenFaultsExactlyTheReaders: a run that has ended and one that has not). -/
theorem test_model_run_ends :
    modelRun (State.reset.withFetchWord 8 0x03) 3 =
      ⟨State.reset.withFetchWord 8 0x03, some (.fault .frameUnwritten)⟩ ∧
    (modelRun ((State.reset.withFetchWord 8 0x03).withFetchWord 8 0x01) 3).ended = none := by decide
/-- R235: a refusal is recorded for the run. -/
theorem test_model_run_refused : (modelRun (State.reset.withFetchWord 8 0xFF) 2).ended =
    some (.refused (.illegalCommand .unassignedSelector)) := by decide
/-- R230: the block itself does not stop (log 7); a setter leaves FRAME_W as it is (R31). -/
theorem test_unwritten_frame_runs :
    (after (exec .frameRead State.reset)).isSome = true ∧ (after (exec .getSwing State.reset)).isSome = true ∧
    (after (exec (.setSwing true) State.reset)).map (·.frameW) = some false := by decide
/-- V2. -/
theorem test_frameInit : frameAfter .frameInit State.reset = some ⟨0x16, 0, 0, 0, 0, 0, 0, 0⟩ := by decide
/-- V3, each byte made different so that an exchange would show. -/
theorem test_frameLoad :
    frameAfter (.frameLoad 1 2 3 4 5 6 7 8) State.reset = some ⟨1, 2, 3, 4, 5, 6, 7, 8⟩ := by decide
/-- V4. -/
theorem test_frameRead : answerOf .frameRead stateA = some (.frame frameA) := by decide

/-- Section 2.2. -/
theorem test_setMode_fan : frameAfter (.setMode 0x04) (loaded 0 0x90 0 0 0 0 0 0) =
    some ⟨0, 0x94, 0, 0, 0, 0, 0, 0⟩ := by decide
theorem test_setMode_default : frameAfter (.setMode 0x11) (loaded 0 0x90 0 0 0 0 0 0) =
    some ⟨0, 0x92, 0, 0, 0, 0, 0, 0⟩ := by decide
theorem test_getMode : answerOf .getMode (loaded 0 0x21 0 0 0 0 0 0) = some (.mode .dry 0x1) := by decide
theorem test_getMode_unrecognized :
    answerOf .getMode (loaded 0 0x0F 0 0 0 0 0 0) = some (.mode .unrecognized 0xF) := by decide
theorem test_setFan_quiet : frameAfter (.setFan 0x09) (loaded 0 0x04 0 0 0 0 0 0) =
    some ⟨0, 0x94, 0, 0, 0, 0, 0, 0⟩ := by decide
theorem test_setFan_default : frameAfter (.setFan 0x19) (loaded 0 0x04 0 0 0 0 0 0) =
    some ⟨0, 0x14, 0, 0, 0, 0, 0, 0⟩ := by decide
theorem test_getFan : answerOf .getFan (loaded 0 0x84 0 0 0 0 0 0) = some (.fan .speed1 0x8) := by decide
theorem test_getFan_speed3 : answerOf .getFan (loaded 0 0x21 0 0 0 0 0 0) = some (.fan .speed3 0x2) := by decide

/-- Section 2.3. -/
theorem test_setTemp : frameAfter (.setTemp 29) (loaded 0 0 0 0 0 0 0xFF 0) =
    some ⟨0, 0, 0, 0, 0, 0, 0x29, 0⟩ := by decide
theorem test_setTemp_default : frameAfter (.setTemp 31) (loaded 0 0 0 0 0 0 0 0) =
    some ⟨0, 0, 0, 0, 0, 0, 0x24, 0⟩ := by decide
theorem test_getTemp : answerOf .getTemp (loaded 0 0 0 0 0 0 0x1A 0) = some (.temp 20 20) := by decide
theorem test_getTemp_default : answerOf .getTemp (loaded 0 0 0 0 0 0 0xFF 0) = some (.temp 24 165) := by decide

/-- Section 2.4. -/
theorem test_setTime : frameAfter (.setTime 12 34) (loaded 0 0 0 0 0 0 0 0) =
    some ⟨0, 0, 0x34, 0x12, 0, 0, 0, 0⟩ := by decide
theorem test_setTime_bad_minute : frameAfter (.setTime 10 60) (loaded 0 0 9 9 0 0 0 0) =
    some ⟨0, 0, 0, 0, 0, 0, 0, 0⟩ := by decide
theorem test_getTime : answerOf .getTime (loaded 0 0 0x7F 0x25 0 0 0 0) = some (.time 25 85) := by decide

/-- Section 2.5. -/
theorem test_setOnTimer : frameAfter (.setOnTimer 23 true false) (loaded 0 0 0 0 0 0 0 0) =
    some ⟨0, 0, 0, 0, 0x63, 0, 0, 0⟩ := by decide
theorem test_setOnTimer_bad_hour : frameAfter (.setOnTimer (-3) false true) (loaded 0 0 0 0 0 0 0 0) =
    some ⟨0, 0, 0, 0, 0x80, 0, 0, 0⟩ := by decide
theorem test_getOnTimer : answerOf .getOnTimer (loaded 0 0 0 0 0xA2 0 0 0) = some (.timer 22 false true) := by decide
theorem test_setOffTimer : frameAfter (.setOffTimer 18 true true) (loaded 0 0 0 0 0 0 0 0) =
    some ⟨0, 0, 0, 0, 0, 0xD8, 0, 0⟩ := by decide
theorem test_getOffTimer : answerOf .getOffTimer (loaded 0 0 0 0 0 0x3F 0 0) = some (.timer 45 false false) := by decide

/-- Section 2.6. -/
theorem test_setSwing : frameAfter (.setSwing true) (loaded 0 0 0 0 0 0 0 0x04) =
    some ⟨0, 0, 0, 0, 0, 0, 0, 0x05⟩ := by decide
theorem test_setSwing_off : frameAfter (.setSwing false) (loaded 0 0 0 0 0 0 0 0x0B) =
    some ⟨0, 0, 0, 0, 0, 0, 0, 0x0A⟩ := by decide
theorem test_getSwing : answerOf .getSwing (loaded 0 0 0 0 0 0 0 0x0A) = some (.bit false) := by decide
theorem test_setSleep : frameAfter (.setSleep true) (loaded 0 0 0 0 0 0 0 0xF4) =
    some ⟨0, 0, 0, 0, 0, 0, 0, 0xF6⟩ := by decide
theorem test_getSleep : answerOf .getSleep (loaded 0 0 0 0 0 0 0 0x0A) = some (.bit true) := by decide
theorem test_setPowerToggle : frameAfter (.setPowerToggle false) (loaded 0 0 0 0 0 0 0 0xFF) =
    some ⟨0, 0, 0, 0, 0, 0, 0, 0xF7⟩ := by decide
theorem test_getPowerToggle : answerOf .getPowerToggle (loaded 0 0 0 0 0 0 0 0xF7) = some (.bit false) := by decide

/-- Section 2.7: all FF, and the row that a 16-term sum gets wrong. -/
theorem test_checksum :
    answerOf .checksum (loaded 0xFF 0xFF 0xFF 0xFF 0xFF 0xFF 0xFF 0xFF) = some (.nibble 0x1) := by decide
theorem test_checksum_fifteen_terms :
    answerOf .checksum (loaded 0x16 0x12 0 0 0 0 0x24 0xF0) = some (.nibble 0x0) := by decide
theorem test_finalize : frameAfter .finalize (loaded 0x16 0x12 0 0 0 0 0x24 0x04) =
    some ⟨0x16, 0x12, 0, 0, 0, 0, 0x24, 0x44⟩ := by decide
theorem test_isValid : answerOf .isValid (loaded 0x16 0x12 0x01 0 0 0 0x23 0) = some (.bit true) := by decide
theorem test_isValid_bad_header : answerOf .isValid (State.reset.setFrame frameBadHeader) = some (.bit false) := by
  decide

/-- Section 2.8, E2 and E4. -/
theorem test_encode : frameAfter (.encode logicalE2) State.reset =
    some ⟨0x16, 0x81, 0x59, 0x23, 0xC7, 0xA2, 0x30, 0x0B⟩ := by decide
theorem test_encode_defaults : frameAfter (.encode logicalE4) State.reset =
    some ⟨0x16, 0x12, 0x00, 0x00, 0xC0, 0x89, 0x24, 0xD0⟩ := by decide
theorem test_decode : answerOf .decode (loaded 0x16 0x81 0x59 0x23 0xC7 0xA2 0x30 0x0B) =
    some (.decoded ⟨.dry, 0x1, .speed1, 0x8, 30, 30, 23, 59, 7, true, true, 22, false, true, true, true, true⟩) := by
  decide

/-- Section 2.9: the data bits of byte 0 of E1, in line order `01101000`, at the indices of R96. -/
theorem test_modulate_bits :
    ((List.range 8).map fun n => (modulateFrame frameA)[3 + 2 * n]?.map (·.dur)) =
      [some 368, some 944, some 944, some 368, some 944, some 368, some 368, some 368] := by decide
/-- Section 2.9: the total of E2. -/
theorem test_modulate_total :
    itemsDuration (modulateFrame ⟨0x16, 0x81, 0x59, 0x23, 0xC7, 0xA2, 0x30, 0x0B⟩) = 93924 := by decide +kernel

/-- D13: a wrong footer. -/
theorem test_demodulate_footer :
    statusAfter (.demodulate ((modulateFrame frameA).set 131 ⟨.space, 1000⟩)) State.reset = some 0x8308 := by decide +kernel
/-- D17: the capture ends at item 57. -/
theorem test_demodulate_cut :
    statusAfter (.demodulate ((modulateFrame frameA).take 57)) State.reset = some 0x3904 := by decide
/-- D25: a wrong header byte. -/
theorem test_receive_header_byte :
    statusAfter (.receive (modulateFrame frameBadHeader)) State.reset = some 0x850A := by decide +kernel
/-- D26. -/
theorem test_receive_ok : frameAfter (.receive (modulateFrame frameA)) State.reset = some frameA := by decide +kernel
/-- Section 2.11: RX_STATUS after D1, read. -/
theorem test_statusRead : answerOf .statusRead (State.reset.setStatus 0x8501) = some (.status 0x8501) := by decide
/-- R35: reserved bits read 0. -/
theorem test_statusRead_reserved : answerOf .statusRead (State.reset.setStatus 0x85F1) = some (.status 0x8501) := by
  decide

/-- D3 to D6, D8 to D10: the edges of the default window. -/
theorem test_window_edges :
    inBounds windowDefault.one 708 = true ∧ inBounds windowDefault.one 707 = false ∧
    inBounds windowDefault.short 460 = true ∧ inBounds windowDefault.short 461 = false ∧
    inBounds windowDefault.headerMark 3489 = true ∧ inBounds windowDefault.headerMark 3488 = false ∧
    inBounds windowDefault.headerSpace 3011 = false ∧ inBounds windowDefault.gap 15255 = true := by decide

/-- Section 2.12: a refusal names why. -/
theorem test_refusal : refusalOf (step { State.reset with pending := [.command ⟨0xFF, []⟩] }) =
    some (.illegalCommand .unassignedSelector) := by decide

/-! ## Assembler (R103, R104) -/

theorem test_assemble_name : assembleLine "SET_MODE COOL ; a name" = some [⟨0x10, [.num 2]⟩] := by decide
theorem test_assemble_numbers : assembleLine "SET_ON_TIMER 7, 1, 1" = some [⟨0x18, [.num 7, .num 1, .num 1]⟩] := by
  decide
theorem test_assemble_hex_and_sign :
    assembleLine "SET_FAN 0x1F" = some [⟨0x12, [.num 31]⟩] ∧
    assembleLine "SET_FAN 0x0a" = some [⟨0x12, [.num 10]⟩] ∧ assembleLine "SET_FAN 0x1G" = none ∧
    assembleLine "SET_TEMP -5" = some [⟨0x14, [.num (-5)]⟩] := by decide
theorem test_assemble_items : assembleLine "DEMODULATE M4652 S2408" =
    some [⟨0x51, [.items [⟨.mark, 4652⟩, ⟨.space, 2408⟩]]⟩] := by decide
/-- Omitted fields are 0; braces are characters 123 and 125. -/
theorem test_assemble_record :
    recordOperand (Char.ofNat 123 :: "mode=COOL, fan=AUTO, temp=24".toList ++ [Char.ofNat 125]) =
      some [.record [2, 1, 24, 0, 0, 0, 0, 0, 0, 0, 0, 0, 0, 0]] := by decide
theorem test_assemble_pseudo : assembleLine "SET_CLOCK 12, 30" = some [⟨0x16, [.num 12, .num 30]⟩] := by decide
theorem test_assemble_no_command : assembleLine "NOP" = none := by decide
theorem test_pseudo_expand : (Pseudo.setClock 12 30).expand = [.setTime 12 30] ∧
    (Pseudo.send logicalA).expand = [.encode logicalA, .modulate] := by decide

/-! ## Witnesses: the hypotheses of the statements can be met -/

theorem default_w1 : windowW1 windowDefault := by intro n; cases n <;> decide
theorem default_w2 : windowW2 windowDefault := by unfold windowW2; decide

/-- A list whose items match the symbols of a frame is a capture of it. -/
theorem captures_of_all {w : Window} {f : Frame} {e : Items}
    (h : ((lineSymbols f).zipIdx.all fun p => itemMatches w e p.2 p.1.1 p.1.2) = true) : captures w f e := by
  intro k y hy
  have hm : (y, k) ∈ (lineSymbols f).zipIdx := List.mem_zipIdx_iff_getElem?.2 hy
  exact List.all_eq_true.1 h _ hm

/-- A queue with a reset at its head. -/
theorem witness_reset_pending : ∃ (s : State) (rest : List Input), s.pending = .reset :: rest ∧ rest ≠ [] :=
  ⟨{ stateA with pending := [.reset, .reset] }, [.reset], rfl, by decide⟩

/-- A queue whose head decodes, one whose head does not, an empty one (StepRunsTheDecodedCommand,
FrameUnwrittenFaultsExactlyTheReaders). -/
theorem witness_StepRunsTheDecodedCommand :
    (∃ (s : State) (c : RawCommand) (rest : List Input) (i : Instr),
      s.pending = .command c :: rest ∧ decode c = .ok i) ∧
    (∃ (s : State) (c : RawCommand) (rest : List Input) (why : DecodeError),
      s.pending = .command c :: rest ∧ decode c = .error why) ∧
    (∃ s : State, s.pending = []) :=
  ⟨⟨{ stateA with pending := [.command ⟨0x31, []⟩] }, ⟨0x31, []⟩, [], .finalize, rfl, by decide⟩,
   ⟨{ stateA with pending := [.command ⟨0x00, []⟩] }, ⟨0x00, []⟩, [], .unassignedSelector, rfl, by decide⟩,
   ⟨stateA, rfl⟩⟩

/-- A step that completes, from a state with the invariant, for each kind of input (StepTakesTheOldestInput,
EveryStepKeepsTheInvariant, NoStepChangesTheWindow). -/
theorem witness_step_completes :
    (∃ t, step { stateA with pending := [.command ⟨0x31, []⟩, .reset] } = .next t) ∧
    (∃ t, step { stateA with pending := [.reset] } = .next t) ∧ (∃ t, step stateA = .next t) :=
  ⟨⟨_, rfl⟩, ⟨_, rfl⟩, ⟨_, rfl⟩⟩

theorem statusLegal_zero : statusLegal 0 := ⟨by decide, .inl rfl⟩

/-- States with the invariant: nothing received, a success, a failure at each edge of the table of R231. -/
theorem witness_StateInv :
    StateInv stateA ∧ StateInv (stateA.setStatus 0x8501) ∧ StateInv (State.reset.setStatus 0x0102) ∧
    StateInv (State.reset.setStatus 0x0204) ∧ StateInv (State.reset.setStatus 0x8104) ∧
    StateInv (State.reset.setStatus 0x8206) ∧ StateInv (State.reset.setStatus 0x8208) ∧
    StateInv (State.reset.setStatus 0x8408) ∧ StateInv (State.reset.setStatus 0x850A) := by
  refine ⟨?_, ?_, ?_, ?_, ?_, ?_, ?_, ?_, ?_⟩ <;> unfold StateInv statusLegal stopsAt <;> decide

/-- A command that decodes (EveryDecodedCommandHasOneSpelling), a well-formed and an ill-formed command
(DecoderAcceptsExactlyWellFormedCommands). -/
theorem witness_decode :
    decode ⟨0x16, [.num 12, .num (-34)]⟩ = .ok (.setTime 12 (-34)) ∧
    (RawCommand.wellFormed ⟨0x16, [.num 12, .num (-34)]⟩) = true ∧ (RawCommand.wellFormed ⟨0x16, [.num 12]⟩) = false := by
  decide

/-- A state with an unwritten frame and one with a written frame: both clauses of every statement on a command that
reads FRAME, and TransmissionLengthCountsTheOnes, FinalizedFrameIsValidIffHeaderIsRight. -/
theorem witness_frame_written_or_not : State.reset.frameW = false ∧ stateA.frameW = true ∧ stateA.frame = frameA := ⟨rfl, rfl, rfl⟩

/-- SetTimeWritesBothOrZeroesBoth: times in and out of range, at the edges. -/
theorem witness_time_ranges :
    (0 ≤ (23 : Int) ∧ (23 : Int) ≤ 23 ∧ 0 ≤ (59 : Int) ∧ (59 : Int) ≤ 59) ∧
    ¬ (0 ≤ (24 : Int) ∧ (24 : Int) ≤ 23 ∧ 0 ≤ (0 : Int) ∧ (0 : Int) ≤ 59) ∧
    ¬ (0 ≤ (0 : Int) ∧ (0 : Int) ≤ 23 ∧ 0 ≤ (-1 : Int) ∧ (-1 : Int) ≤ 59) := by decide

/-- SwingAndSleepSettersWriteOneBit, NarrowSettersMakeTheChecksumStale: a valid frame whose flags change. -/
theorem witness_valid_frame_changed :
    stateA.frame = frameA ∧ frameValid frameA = true ∧ bitOf frameA.b7 0 ≠ true ∧ bitOf frameA.b7 1 ≠ true ∧
    setterField (.setFan 0x09) = some .fan ∧ setterOf (.setFan 0x09) frameA ≠ frameA := by decide

/-- FlagGettersAnswerTheirBit, last clause: a getter completes with bit 2 of byte 7 either way. -/
theorem witness_bit_two : getterField .getSleep = some .sleep ∧
    (∃ t, exec .getSleep stateA = .next t) ∧
    ∃ u, exec .getSleep (stateA.setBytes { frameA with b7 := setBit frameA.b7 2 true }) = .next u :=
  ⟨rfl, ⟨_, rfl⟩, ⟨_, rfl⟩⟩

/-- BcdDigitsAndRoundTrip and TimerByteFieldsAndRoundTrip at the ends of their ranges. -/
theorem witness_digit_ranges : unbcd (bcd8 99) = 99 ∧ unbcd (bcd8 0) = 0 ∧ timerHour (timer8 23 true false) = 23 := by
  decide

/-- The laws of the field family: two setters of different fields, two of one field, a getter of another field, a bit of
a field and one outside it. -/
theorem witness_fields :
    setterField (.setMode 1) = some .mode ∧ setterField (.setFan 2) = some .fan ∧
    setterField (.setMode 4) = some .mode ∧ getterField .getFan = some .fan ∧ Field.mode ≠ Field.fan ∧
    fieldHasBit .mode 8 = true ∧ fieldHasBit .mode 11 = true ∧ fieldHasBit .mode 12 = false ∧
    fieldHasBit .powerToggle 59 = true ∧ checksumHasBit 59 = false ∧ checksumHasBit 60 = true := by decide

/-- EverySingleBitErrorIsDetected, at both ends of the frame. -/
theorem witness_single_bit : hi frameA.b7 = cs frameA ∧
    (State.reset.setFrame (flipBit frameA 0)).frame = (flipBit frameA 0) ∧
    (State.reset.setFrame (flipBit frameA 63)).frame = (flipBit frameA 63) := by decide

/-- FinalizeWritesTheChecksumNibble: a frame with a wrong header byte. -/
theorem witness_wrong_header : (State.reset.setFrame frameBadHeader).frame = frameBadHeader ∧
    frameBadHeader.b0 ≠ 0x16 := by decide

/-- A valid logical state, with the window's constraints (DecodeOfEncodeReportsTheLogicalState,
LogicalStateSurvivesTheLine). -/
theorem witness_logical_state : logicalValid logicalE2 ∧ windowW1 stateA.win ∧ windowW2 stateA.win :=
  ⟨by unfold logicalValid; decide, default_w1, default_w2⟩

/-- D1: a demodulation that succeeds. -/
theorem witness_demod_ok : demod windowDefault (modulateFrame frameA) = .ok (frameA, 133) := by decide +kernel
/-- D24: one that succeeds with a wrong header byte. -/
theorem witness_demod_ok_bad_header :
    demod windowDefault (modulateFrame frameBadHeader) = .ok (frameBadHeader, 133) ∧ frameBadHeader.b0 ≠ 0x16 := by decide +kernel
/-- D18, D21: the checks that fail first, an item and the checksum (TheFirstFailingCheckIsReported). -/
theorem witness_demod_error :
    demod windowDefault [] = .error ⟨.header, 0⟩ ∧
    demod windowDefault (modulateFrame frameBadSum) = .error ⟨.checksum, 130⟩ := by decide +kernel
/-- D13 again, the last phase. -/
theorem witness_demod_error_footer :
    demod windowDefault ((modulateFrame frameA).set 131 ⟨.space, 1000⟩) = .error ⟨.footer, 131⟩ := by decide +kernel

/-- Captures of a frame with a right and of one with a wrong checksum, the first distorted and with more items after
it (LineRoundTripForEveryCapture, ACaptureCutShortFailsWhereItEnds at 129, 130 and 132). -/
theorem witness_capture :
    captures windowDefault frameA ((modulateFrame frameA).set 5 ⟨.space, 708⟩ ++ [⟨.mark, 1⟩]) ∧ hi frameA.b7 = cs frameA :=
  ⟨captures_of_all (by decide), by decide⟩
theorem witness_capture_bad_sum :
    captures windowDefault frameBadSum (modulateFrame frameBadSum) ∧ hi frameBadSum.b7 ≠ cs frameBadSum :=
  ⟨captures_of_all (by decide), by decide⟩
theorem witness_cut_edges :
    demod windowDefault ((modulateFrame frameA).take 129) = .error ⟨.bit, 129⟩ ∧
    demod windowDefault ((modulateFrame frameA).take 130) = .error ⟨.footer, 130⟩ ∧
    demod windowDefault ((modulateFrame frameA).take 132) = .error ⟨.footer, 132⟩ := by decide +kernel

/-- OnlyReceivesWriteTheStatus, FrameWrittenIsClearedByResetOnly: commands that do write them. -/
theorem witness_writers :
    statusAfter (.demodulate []) stateA = some 0x0002 ∧ stateA.rxStatus = 0x0000 ∧
    (after (exec .frameInit State.reset)).map (·.frameW) = some true ∧ State.reset.frameW = false ∧
    (after (step { stateA with pending := [.reset] })).map (·.frameW) = some false ∧ stateA.frameW = true := by decide

/-- EveryCommandCompletesInEveryState, FrameUnwrittenFaultsExactlyTheReaders: a command that needs a frame and one
that does not. -/
theorem witness_safe : safeToIssue .finalize stateA ∧ safeToIssue .statusRead State.reset ∧
    ¬ safeToIssue .finalize State.reset := by
  unfold safeToIssue; decide

/-- ReadingCommandsChangeNothing. -/
theorem witness_reading : readsOnly .isValid = true ∧ ∃ t, exec .isValid stateA = .next t := ⟨rfl, _, rfl⟩

/-- NoHiddenStateSurvivesACommand: two states that differ in what is waiting and in what was answered last; steps
from an unwritten frame, one that writes it and one that does not. -/
theorem witness_two_states :
    stateA ≠ (stateA.answer (.bit true)).setPending [.reset] ∧
    stateA.frame = ((stateA.answer (.bit true)).setPending [.reset]).frame ∧
    (∃ t, exec .finalize stateA = .next t) ∧
    State.reset.frameW = false ∧ State.reset.setBytes frameA ≠ State.reset ∧
    (∃ t, step (State.reset.withFetchWord 8 0x01) = .next t ∧ t.frameW = true) ∧
    (∃ t, step (State.reset.withFetchWord 8 0x53) = .next t ∧ t.frameW = false) :=
  ⟨by decide, rfl, ⟨_, rfl⟩, rfl, by decide, ⟨_, rfl, rfl⟩, ⟨_, rfl, rfl⟩⟩

end Sys2Proof.Tests
end

