-- ==== Sys2Proof/Proofs/TimerByte.lean ====
section
/-! PROOFS. The timer byte (R92): its four fields in arithmetic, and the obligation about them. -/

namespace Sys2Proof.Machine

theorem tens_toNat (b : Byte) : (b.extractLsb' 4 2).toNat = b.toNat / 16 % 4 := by
  simp [Nat.shiftRight_eq_div_pow]

theorem bitOf_toNat (b : Byte) (i : Nat) : (bitOf b i).toNat = b.toNat / 2 ^ i % 2 :=
  Nat.toNat_testBit b.toNat i

theorem timerHour_eq (b : Byte) : timerHour b = 10 * (b.toNat / 16 % 4) + b.toNat % 16 := by
  rw [timerHour, tens_toNat, lo_toNat]

/-- The bound R92 gives for a disassembled hour: a tens field of 3 and a ones field of 15. -/
theorem timerHour_le (b : Byte) : timerHour b ≤ 45 := by
  rw [timerHour_eq]; omega

/-- A byte is the sum of its timer fields, each at its weight. -/
theorem toNat_eq_timer_fields (b : Byte) :
    b.toNat = 128 * (timerActive b).toNat + 64 * (timerHalf b).toNat + 16 * (b.extractLsb' 4 2).toNat + (lo b).toNat := by
  have := b.isLt
  rw [timerActive, timerHalf, bitOf_toNat, bitOf_toNat, tens_toNat, lo_toNat]
  omega

@[simp] theorem timerHalf_timer8 (h : Nat) (hf act : Bool) : timerHalf (timer8 h hf act) = hf := half_timer8 h hf act

@[simp] theorem timerActive_timer8 (h : Nat) (hf act : Bool) : timerActive (timer8 h hf act) = act :=
  active_timer8 h hf act

theorem lo_timer8_toNat (h : Nat) (hf act : Bool) : (lo (timer8 h hf act)).toNat = h % 10 := by
  rw [lo_timer8, BitVec.toNat_ofNat]; omega

/-- The tens digit fits its two bits up to 39, so for every hour of the day. -/
theorem tens_timer8_toNat {h : Nat} (hh : h ≤ 39) (hf act : Bool) :
    ((timer8 h hf act).extractLsb' 4 2).toNat = h / 10 := by
  rw [tens_timer8, BitVec.toNat_ofNat]; omega

theorem timer8_toNat {h : Nat} (hh : h ≤ 39) (hf act : Bool) :
    (timer8 h hf act).toNat = 128 * act.toNat + 64 * hf.toNat + 16 * (h / 10) + h % 10 := by
  rw [toNat_eq_timer_fields, timerActive_timer8, timerHalf_timer8, tens_timer8_toNat hh, lo_timer8_toNat]

theorem timerHour_timer8 {h : Nat} (hh : h ≤ 39) (hf act : Bool) : timerHour (timer8 h hf act) = h := by
  rw [timerHour, tens_timer8_toNat hh, lo_timer8_toNat]
  exact Nat.div_add_mod h 10

/-- Settles O23: assembly puts each field at its weight (`timer8_toNat`) and each is read back from there; the bound
on the hour of an arbitrary byte comes from the widths of its two digit fields (`timerHour_le`). -/
theorem timerByteFieldsAndRoundTrip : Obligations.TimerByteFieldsAndRoundTrip := by
  refine ⟨fun h hf act hh => ?assembled, fun b => ?any⟩
  case assembled =>
    have h39 : h ≤ 39 := by omega
    exact ⟨timer8_toNat h39 hf act, timerHour_timer8 h39 hf act, timerHalf_timer8 h hf act, timerActive_timer8 h hf act⟩
  case any => exact ⟨timerHour_eq b, timerHour_le b, rfl, rfl⟩

end Sys2Proof.Machine
end

