-- ==== Sys2Proof/Proofs/ChecksumSum.lean ====
section
/-! PROOFS. The checksum as a sum over the bytes in index order (R170, R171), and the obligation about it. -/

namespace Sys2Proof.Machine

/-- The terms of the checksum, gathered from the row of bytes: a low nibble of every byte, a high nibble of all but
byte 7. -/
theorem nibbleSum_eq_sum_bytes (f : Frame) :
    nibbleSum f = (f.bytes.map fun b => (lo b).toNat).sum + ((f.bytes.take 7).map fun b => (hi b).toNat).sum := by
  simp only [nibbleSum, Frame.bytes, List.take_succ_cons, List.take_zero, List.map_cons, List.map_nil,
    List.sum_cons, List.sum_nil]
  omega

/-- One nibble from each byte of a row sums to at most 15 a byte. -/
theorem sum_map_nibble_le (part : Byte → Nibble) (bs : List Byte) :
    (bs.map fun b => (part b).toNat).sum ≤ 15 * bs.length := by
  induction bs with
  | nil => simp
  | cons b bs ih =>
    have := (part b).isLt
    simp only [List.map_cons, List.sum_cons, List.length_cons]
    omega

/-- R171: fifteen terms of at most 15, so the sum fits a byte before the reduction. -/
theorem nibbleSum_le (f : Frame) : nibbleSum f ≤ 225 := by
  have hlo : _ ≤ 15 * 8 := sum_map_nibble_le lo f.bytes
  have hhi : _ ≤ 15 * 7 := sum_map_nibble_le hi (f.bytes.take 7)
  rw [nibbleSum_eq_sum_bytes]
  omega

theorem cs_toNat (f : Frame) : (cs f).toNat = nibbleSum f % 16 := BitVec.toNat_ofNat _ _

/-- Settles O28: the model's sum is the one over the row of bytes (`nibbleSum_eq_sum_bytes`), its bound counts the
terms (`nibbleSum_le`), and of byte 7 it reads the low nibble alone, which a write to the high one keeps. -/
theorem checksumIsTheFifteenTermSum : Obligations.ChecksumIsTheFifteenTermSum := by
  refine ⟨fun b => ⟨lo_toNat b, hi_toNat b⟩, fun f => ?sum, fun f v => ?highNibble⟩
  case sum =>
    rw [← nibbleSum_eq_sum_bytes]
    exact ⟨cs_toNat f, nibbleSum_le f⟩
  case highNibble => exact cs_of_same_low (lo_setHi f.b7 v)

end Sys2Proof.Machine
end

