-- ==== Sys2Proof/Proofs/CommandPort.lean ====
section
/-! PROOFS. The command port (R98 to R101): the decoder and the encoder undo each other, and the decoder accepts what the
check of Sys2Proof/WellFormed.lean accepts. -/

namespace Sys2Proof

/-! ## Decoding what the encoder wrote, format by format -/

@[simp] theorem recordOf_recordFields (ls : LogicalState) : recordOf (recordFields ls) = .ok ls := by
  simp only [recordOf, recordFields, asU8_ofU8, asU1_ofU1]
  rfl

theorem formatC8_ofU8 (mk : Byte → Instr) (b : Byte) : formatC8 mk [.num (ofU8 b)] = .ok (mk b) := by
  simp only [formatC8, asU8_ofU8]
  rfl

theorem formatB_ofU1 (mk : Bool → Instr) (v : Bool) : formatB mk [.num (ofU1 v)] = .ok (mk v) := by
  simp only [formatB, asU1_ofU1]
  rfl

theorem formatTM_ofU1 (mk : Int → Bool → Bool → Instr) (h : Int) (hf act : Bool) :
    formatTM mk [.num h, .num (ofU1 hf), .num (ofU1 act)] = .ok (mk h hf act) := by
  simp only [formatTM, asInt_num, asU1_ofU1]
  rfl

theorem formatF8_ofU8 (mk : Byte → Byte → Byte → Byte → Byte → Byte → Byte → Byte → Instr)
    (b0 b1 b2 b3 b4 b5 b6 b7 : Byte) :
    formatF8 mk [.num (ofU8 b0), .num (ofU8 b1), .num (ofU8 b2), .num (ofU8 b3),
      .num (ofU8 b4), .num (ofU8 b5), .num (ofU8 b6), .num (ofU8 b7)] = .ok (mk b0 b1 b2 b3 b4 b5 b6 b7) := by
  simp only [formatF8, asU8_ofU8]
  rfl

theorem formatST_recordFields (mk : LogicalState → Instr) (ls : LogicalState) :
    formatST mk [.record (recordFields ls)] = .ok (mk ls) := by
  simp only [formatST, recordOf_recordFields]
  rfl

/-- Settles O6: the selector of an encoding picks the decoder's format of that row, and each format reads back the
operands the encoder writes for it; a format of integers, of items or of no operand does so by computation. -/
theorem decodeOfEncodeIsTheCommand : Obligations.DecodeOfEncodeIsTheCommand := by
  intro i
  cases i
  case frameLoad => exact formatF8_ofU8 _ _ _ _ _ _ _ _ _
  case setMode | setFan => exact formatC8_ofU8 _ _
  case setOnTimer | setOffTimer => exact formatTM_ofU1 _ _ _ _
  case setSwing | setSleep | setPowerToggle => exact formatB_ofU1 _ _
  case encode => exact formatST_recordFields _ _
  all_goals rfl

/-! ## One spelling -/

theorem rawCommand_eq {c : RawCommand} {n : Nat} {l : List Operand} (ho : c.opc.toNat = n) (hl : c.operands = l) :
    c = ⟨BitVec.ofNat 8 n, l⟩ := by
  cases c
  exact congrArg₂ RawCommand.mk (opc_of_toNat ho) hl

/-- Settles O7: one case per selector of the map; the inversion lemma of its format gives the operands, which with the
selector are the encoding. -/
theorem everyDecodedCommandHasOneSpelling : Obligations.EveryDecodedCommandHasOneSpelling := by
  intro c i h
  unfold decode at h
  split at h
  case h_2 ho =>
    obtain ⟨_, _, _, _, _, _, _, _, hl, rfl⟩ := formatF8_ok h
    exact rawCommand_eq ho hl
  case h_4 ho | h_6 ho =>
    obtain ⟨_, hl, rfl⟩ := formatC8_ok h
    exact rawCommand_eq ho hl
  case h_8 ho =>
    obtain ⟨_, hl, rfl⟩ := formatI1_ok h
    exact rawCommand_eq ho hl
  case h_10 ho =>
    obtain ⟨_, _, hl, rfl⟩ := formatI2_ok h
    exact rawCommand_eq ho hl
  case h_12 ho | h_14 ho =>
    obtain ⟨_, _, _, hl, rfl⟩ := formatTM_ok h
    exact rawCommand_eq ho hl
  case h_16 ho | h_18 ho | h_20 ho =>
    obtain ⟨_, hl, rfl⟩ := formatB_ok h
    exact rawCommand_eq ho hl
  case h_25 ho =>
    obtain ⟨_, hl, rfl⟩ := formatST_ok h
    exact rawCommand_eq ho hl
  case h_28 ho | h_29 ho =>
    obtain ⟨_, hl, rfl⟩ := formatEV_ok h
    exact rawCommand_eq ho hl
  case h_31 => cases h
  all_goals
    obtain ⟨hl, rfl⟩ := formatN_ok h
    exact rawCommand_eq ‹_› hl

/-! ## Well-formed commands -/

/-- The encoding of every command is well formed: the family of Sys2Proof/Laws/PerInstr.lean. -/
theorem encode_wellFormed (i : Instr) : (encode i).wellFormed = true := by
  cases i
  case frameLoad => exact Laws.EncodeWellFormed.frameLoad ..
  case setMode => exact Laws.EncodeWellFormed.setMode _
  case setFan => exact Laws.EncodeWellFormed.setFan _
  case setOnTimer => exact Laws.EncodeWellFormed.setOnTimer ..
  case setOffTimer => exact Laws.EncodeWellFormed.setOffTimer ..
  case setSwing => exact Laws.EncodeWellFormed.setSwing _
  case setSleep => exact Laws.EncodeWellFormed.setSleep _
  case setPowerToggle => exact Laws.EncodeWellFormed.setPowerToggle _
  case encode => exact Laws.EncodeWellFormed.encode _
  all_goals rfl

theorem RawCommand.wellFormed_iff (c : RawCommand) :
    c.wellFormed = true ↔ ∃ f, formatOf c.opc = some f ∧ f.shape.fits c.operands = true := by
  unfold RawCommand.wellFormed
  cases formatOf c.opc <;> simp

/-- A well-formed command is decoded: with the selector fixed to one of the map's, the decoder comes down to the format
of its row, which reads operands that fit it. -/
theorem decode_of_wellFormed {c : RawCommand} (h : c.wellFormed = true) : ∃ i, decode c = .ok i := by
  obtain ⟨f, hf, hfit⟩ := c.wellFormed_iff.1 h
  obtain ⟨opc, ops⟩ := c
  unfold formatOf at hf
  split at hf
  case h_31 => cases hf
  all_goals
    cases hf
    obtain rfl := opc_of_toNat ‹opc.toNat = _›
  case h_2 => exact formatF8_of_fits hfit
  case h_4 | h_6 => exact formatC8_of_fits hfit
  case h_8 => exact formatI1_of_fits hfit
  case h_10 => exact formatI2_of_fits hfit
  case h_12 | h_14 => exact formatTM_of_fits hfit
  case h_16 | h_18 | h_20 => exact formatB_of_fits hfit
  case h_25 => exact formatST_of_fits hfit
  case h_28 | h_29 => exact formatEV_of_fits hfit
  all_goals exact formatN_of_fits hfit

/-- Settles O5: a command that decodes is the encoding of its instruction (O7), which is well formed; a well-formed one
has a format whose operands the decoder reads. -/
theorem decoderAcceptsExactlyWellFormedCommands : Obligations.DecoderAcceptsExactlyWellFormedCommands := by
  intro c
  constructor
  · rintro ⟨i, hi⟩
    rw [everyDecodedCommandHasOneSpelling c i hi]
    exact encode_wellFormed i
  · exact decode_of_wellFormed

/-- Settles O8: each word is run through the decoder. -/
theorem selectorWordsDecodeAsTheMapSays : Obligations.SelectorWordsDecodeAsTheMapSays :=
  ⟨rfl, rfl, rfl, rfl, rfl, rfl, rfl, rfl, rfl, rfl, rfl, rfl, rfl, rfl, rfl⟩

end Sys2Proof
end

