-- ==== Sys2Proof/Proofs/CommandRules.lean ====
section
/-! PROOFS. What a command of each kind keeps (R33), stated once, and the obligations about the commands that read or
replace the whole frame. -/

namespace Sys2Proof.Machine

/-- A reader of an unwritten FRAME faults in a step (R234). -/
theorem guardedExec_faults {i : Instr} {s : State} (hn : needsFrame i = true) (hW : s.frameW = false) :
    guardedExec i s = .fault .frameUnwritten :=
  guardedExec_of_unwritten ((frameUnwritten_iff i s).2 ⟨hn, hW⟩)

/-! ## The frame clause of each kind of command -/

theorem sameButResult_answer (s : State) (r : Result) : sameButResult s (s.answer r) :=
  ⟨rfl, rfl, rfl, rfl, rfl⟩

theorem sameButBytes_setBytes (s : State) (f : Frame) (r : Result) : sameButBytes s ((s.setBytes f).answer r) :=
  ⟨rfl, rfl, rfl, rfl⟩

theorem sameButFrame_setFrame (s : State) (f : Frame) (r : Result) : sameButFrame s ((s.setFrame f).answer r) :=
  ⟨rfl, rfl, rfl⟩

/-! ## Whole-frame access -/

/-- Settles O9: both commands run through `replaceFrame`, in every state. -/
theorem frameInitAndFrameLoadReplaceTheFrame : Obligations.FrameInitAndFrameLoadReplaceTheFrame :=
  ⟨fun s => ⟨_, rfl, rfl, rfl, sameButFrame_setFrame s freshFrame .empty⟩,
    fun b0 b1 b2 b3 b4 b5 b6 b7 s =>
      ⟨_, rfl, rfl, rfl, sameButFrame_setFrame s ⟨b0, b1, b2, b3, b4, b5, b6, b7⟩ .empty⟩⟩

/-- Settles O10: FRAME_READ runs through `readFrame`, and R234 guards it. -/
theorem frameReadAnswersTheFrame : Obligations.FrameReadAnswersTheFrame := by
  refine fun s => ⟨guardedExec_faults rfl, ?_⟩
  rintro f rfl
  exact ⟨_, rfl, rfl, sameButResult_answer s (.frame s.frame)⟩

/-- Settles O58: a reading command only answers, and what it answers is a function of fields its answer leaves alone. -/
theorem readingCommandsChangeNothing : Obligations.ReadingCommandsChangeNothing := by
  intro i s h
  cases i
  case frameInit | frameLoad | setMode | setFan | setTemp | setTime | setOnTimer | setOffTimer | setSwing | setSleep
      | setPowerToggle | finalize | encode | demodulate | receive =>
    cases h
  all_goals exact ⟨_, rfl, sameButResult_answer s _, rfl⟩

end Sys2Proof.Machine
end

