-- ==== Sys2Proof/Proofs/OneNibble.lean ====
section
/-! PROOFS. The frame as a space of bytes under one write (R60, R66), and the law behind R176 and R264: a write that
changes one nibble of a frame with a right checksum leaves a frame whose checksum is wrong. -/

namespace Sys2Proof.Machine

/-! ## One write -/

/-- A data bit by the byte it stands in. -/
theorem Frame.exists_byte (f : Frame) {n : Nat} (hn : n < 64) :
    ∃ b, f.byte? (n / 8) = some b ∧ f.dataBit n = bitOf b (n % 8) := by
  have hlt : n / 8 < f.bytes.length := by simp only [Frame.bytes, List.length_cons, List.length_nil]; omega
  have hb : f.byte? (n / 8) = some f.bytes[n / 8] := List.getElem?_eq_getElem hlt
  exact ⟨_, hb, by rw [Frame.dataBit, hb]⟩

/-- Every data bit after a write of one byte. -/
theorem Frame.dataBit_setByte_eq (f : Frame) {a : Nat} (n : Nat) (v : Byte) (ha : a < 8) :
    (f.setByte a v).dataBit n = if n / 8 = a then bitOf v (n % 8) else f.dataBit n := by
  rw [Frame.dataBit, Frame.byte?_setByte _ _ _ _ ha]
  split_ifs <;> rfl

/-- A write of another byte changes the frame. -/
theorem Frame.setByte_ne {f : Frame} {a : Nat} {b v : Byte} (hb : f.byte? a = some b) (hne : v ≠ b) (ha : a < 8) :
    f.setByte a v ≠ f := by
  intro h
  have hv : (f.setByte a v).byte? a = some v := by rw [Frame.byte?_setByte _ _ _ _ ha, if_pos rfl]
  rw [h, hb] at hv
  exact hne (Option.some.inj hv).symm

/-- A write of the byte that stands there changes nothing. -/
theorem Frame.setByte_self {f : Frame} {a : Nat} {b : Byte} (hb : f.byte? a = some b) (ha : a < 8) :
    f.setByte a b = f := by
  refine Frame.ext_bytes fun c _ => ?_
  rw [Frame.byte?_setByte _ _ _ _ ha]
  split_ifs with hc
  · rw [hc, hb]
  · rfl

theorem Frame.b7_setByte (f : Frame) {a : Nat} (v : Byte) (h7 : a ≠ 7) (ha : a < 8) : (f.setByte a v).b7 = f.b7 := by
  have h := Frame.byte?_setByte f a 7 v ha
  rw [if_neg h7.symm] at h
  exact Option.some.inj h

/-- Two writes keep every index but theirs. -/
theorem sameBytesBut_setByte_setByte (f : Frame) {a b : Nat} (v w : Byte) (ha : a < 8) (hb : b < 8) :
    sameBytesBut f ((f.setByte a v).setByte b w) [b, a] := by
  intro c hc
  obtain ⟨hcb, hca⟩ : c ≠ b ∧ c ≠ a := by simpa using hc
  rw [Frame.byte?_setByte _ _ _ _ hb, if_neg hcb, Frame.byte?_setByte _ _ _ _ ha, if_neg hca]

/-! ## One bit of a byte -/

theorem lo_setBit (b : Byte) {j : Nat} (v : Bool) (h4 : 4 ≤ j) (h8 : j < 8) : lo (setBit b j v) = lo b := by
  apply BitVec.eq_of_getLsbD_eq
  intro i hi
  have := bitOf_setBit b i j v h8
  simpa [lo, bitOf, hi, show ¬ i = j by omega] using this

/-- A write of one bit keeps one of the two nibbles. -/
theorem setBit_keeps_nibble (b : Byte) {j : Nat} (v : Bool) (hj : j < 8) :
    hi (setBit b j v) = hi b ∨ lo (setBit b j v) = lo b := by
  rcases Nat.lt_or_ge j 4 with h4 | h4
  · exact .inl (hi_setBit b v h4)
  · exact .inr (lo_setBit b v h4 hj)

theorem setBit_ne {b : Byte} {j : Nat} {v : Bool} (hj : j < 8) (hv : bitOf b j ≠ v) : setBit b j v ≠ b := by
  intro h
  have := bitOf_setBit b j j v hj
  rw [h, if_pos rfl] at this
  exact hv this

/-! ## The checksum under one write -/

/-- What a byte at an index adds to the sum of R171: the high nibble of byte 7 is no term. -/
def checksumTerm (a : Nat) (b : Byte) : Nat := (lo b).toNat + if a = 7 then 0 else (hi b).toNat

/-- A write replaces one term of the sum. -/
theorem nibbleSum_setByte {f : Frame} {a : Nat} {b : Byte} (v : Byte) (hb : f.byte? a = some b) (ha : a < 8) :
    nibbleSum (f.setByte a v) + checksumTerm a b = nibbleSum f + checksumTerm a v := by
  interval_cases a <;>
    (cases hb; simp only [nibbleSum, checksumTerm, Frame.setByte, reduceIte, Nat.reduceEqDiff]; omega)

/-- The checksum tells apart two sums less than 16 apart. -/
theorem cs_ne_of_terms {f g : Frame} {x y : Nat} (h : nibbleSum g + x = nibbleSum f + y) (hne : x ≠ y)
    (hxy : x < y + 16) (hyx : y < x + 16) : cs g ≠ cs f := by
  intro e
  have := congrArg BitVec.toNat e
  rw [cs_toNat, cs_toNat] at this
  omega

/-- R176, R264: a write that changes one nibble leaves the checksum nibble wrong. -/
theorem checksum_wrong_of_nibble_write {f : Frame} {a : Nat} {b v : Byte} (hb : f.byte? a = some b) (ha : a < 8)
    (hone : hi v = hi b ∨ lo v = lo b) (hne : v ≠ b) (hc : hi f.b7 = cs f) :
    hi (f.setByte a v).b7 ≠ cs (f.setByte a v) := by
  have hsum := nibbleSum_setByte v hb ha
  have ne_toNat : ∀ {x y : Nibble}, x ≠ y → x.toNat ≠ y.toNat := fun h e => h (BitVec.eq_of_toNat_eq e)
  by_cases h7 : a = 7
  · subst h7
    obtain rfl : f.b7 = b := Option.some.inj hb
    rcases hone with h | h
    · have hlo : lo v ≠ lo f.b7 := fun e => hne (byte_ext h e)
      show hi v ≠ _
      rw [h, hc]
      exact (cs_ne_of_low_ne hlo).symm
    · show hi v ≠ _
      rw [show cs (f.setByte 7 v) = cs f from cs_of_same_low h, ← hc]
      exact fun e => hne (byte_ext e h)
  · rw [Frame.b7_setByte f v h7 ha, hc]
    simp only [checksumTerm, if_neg h7] at hsum
    have hv := (lo v).isLt
    have hb' := (lo b).isLt
    have hv' := (hi v).isLt
    have hb'' := (hi b).isLt
    rcases hone with h | h
    · have := ne_toNat fun e => hne (byte_ext h e)
      rw [h] at hsum
      exact (cs_ne_of_terms hsum (by omega) (by omega) (by omega)).symm
    · have := ne_toNat fun e => hne (byte_ext e h)
      rw [h] at hsum
      exact (cs_ne_of_terms hsum (by omega) (by omega) (by omega)).symm

theorem not_frameValid_of_wrong_sum {f : Frame} (h : hi f.b7 ≠ cs f) : frameValid f = false :=
  Bool.eq_false_iff.2 fun hv => h ((frameValid_iff f).1 hv).2

/-- The same of a valid frame, for a write known to keep one nibble. -/
theorem frameValid_setByte_of_changed {f : Frame} {a : Nat} {b v : Byte} (hb : f.byte? a = some b) (ha : a < 8)
    (hone : hi v = hi b ∨ lo v = lo b) (hvalid : frameValid f = true) (hne : f.setByte a v ≠ f) :
    frameValid (f.setByte a v) = false := by
  have hvb : v ≠ b := fun e => hne (e ▸ Frame.setByte_self hb ha)
  exact not_frameValid_of_wrong_sum (checksum_wrong_of_nibble_write hb ha hone hvb ((frameValid_iff f).1 hvalid).2)

end Sys2Proof.Machine
end

