-- ==== Sys2Proof/Proofs/Setters.lean ====
section
/-! PROOFS. The setters (R123 to R139): each is a write of one byte of FRAME (SET_TIME of two), and the obligations about
what each writes. -/

namespace Sys2Proof.Machine

/-! ## The setters as writes of bytes -/

theorem setModeOf_eq (code : Byte) (f : Frame) : setModeOf code f = f.setByte 1 (setLo f.b1 (modeOrDefault code)) := rfl

theorem setFanOf_eq (code : Byte) (f : Frame) : setFanOf code f = f.setByte 1 (setHi f.b1 (fanOrDefault code)) := rfl

theorem setTempOf_eq (a : Int) (f : Frame) : setTempOf a f = f.setByte 6 (bcd8 (tempOrDefault a)) := rfl

theorem setTimeOf_eq (h m : Int) (f : Frame) :
    setTimeOf h m f = (f.setByte 3 (bcd8 (timeOrZero h m).1)).setByte 2 (bcd8 (timeOrZero h m).2) := rfl

theorem setOnTimerOf_eq (h : Int) (hf act : Bool) (f : Frame) :
    setOnTimerOf h hf act f = f.setByte 4 (timer8 (timerHourOrZero h) hf act) := rfl

theorem setOffTimerOf_eq (h : Int) (hf act : Bool) (f : Frame) :
    setOffTimerOf h hf act f = f.setByte 5 (timer8 (timerHourOrZero h) hf act) := rfl

theorem setSwingOf_eq (v : Bool) (f : Frame) : setSwingOf v f = f.setByte 7 (setBit f.b7 0 v) := rfl

theorem setSleepOf_eq (v : Bool) (f : Frame) : setSleepOf v f = f.setByte 7 (setBit f.b7 1 v) := rfl

theorem setPowerToggleOf_eq (v : Bool) (f : Frame) : setPowerToggleOf v f = f.setByte 7 (setBit f.b7 3 v) := rfl

/-! ## The values written -/

theorem modeOrDefault_eq (code : Byte) :
    modeOrDefault code = if code = 0x01 ∨ code = 0x02 ∨ code = 0x04 then lo code else 0x2 :=
  if_congr (by simp [modeCodes]) rfl rfl

theorem fanOrDefault_eq (code : Byte) :
    fanOrDefault code =
      if code = 0x01 ∨ code = 0x02 ∨ code = 0x03 ∨ code = 0x04 ∨ code = 0x08 ∨ code = 0x09 then lo code else 0x1 :=
  if_congr (by simp [fanCodes]) rfl rfl

theorem tempOrDefault_cast (a : Int) : (tempOrDefault a : Int) = if 16 ≤ a ∧ a ≤ 30 then a else 24 := by
  split_ifs with h
  · exact tempOrDefault_in h
  · rw [tempOrDefault_out h]; rfl

theorem timerHourOrZero_cast (h : Int) : (timerHourOrZero h : Int) = if 0 ≤ h ∧ h ≤ 23 then h else 0 := by
  split_ifs with hh
  · rw [timerHourOrZero_in hh]; omega
  · rw [timerHourOrZero_out hh]; rfl

theorem timerHourOrZero_le (h : Int) : timerHourOrZero h ≤ 23 := by
  have := timerHourOrZero_cast h
  split_ifs at this <;> omega

/-- The digits of a timer byte as a setter writes it (R131, R133). -/
theorem tens_timer8_timerHourOrZero (h : Int) (hf act : Bool) :
    (((timer8 (timerHourOrZero h) hf act).extractLsb' 4 2).toNat : Int) = (if 0 ≤ h ∧ h ≤ 23 then h else 0) / 10 := by
  have := timerHourOrZero_le h
  rw [tens_timer8_toNat (by omega), ← timerHourOrZero_cast, Int.natCast_ediv]
  rfl

theorem lo_timer8_timerHourOrZero (h : Int) (hf act : Bool) :
    ((lo (timer8 (timerHourOrZero h) hf act)).toNat : Int) = (if 0 ≤ h ∧ h ≤ 23 then h else 0) % 10 := by
  rw [lo_timer8_toNat, ← timerHourOrZero_cast, Int.natCast_emod]
  rfl

/-! ## The obligations -/

/-- Settles O11: one nibble of byte 1, through `updateFrame`. -/
theorem setModeWritesTheModeNibble : Obligations.SetModeWritesTheModeNibble := by
  refine fun code s => ⟨guardedExec_faults rfl, ?_⟩
  rintro f rfl
  refine ⟨_, setModeOf code s.frame, rfl, rfl, ?_, hi_setLo _ _, ?_, sameButBytes_setBytes s _ .empty⟩
  · rw [← modeOrDefault_eq]
    exact lo_setLo _ _
  · rw [setModeOf_eq]
    exact sameBytesBut_setByte s.frame _ (by omega)

/-- Settles O12: the other nibble of byte 1. -/
theorem setFanWritesTheFanNibble : Obligations.SetFanWritesTheFanNibble := by
  refine fun code s => ⟨guardedExec_faults rfl, ?_⟩
  rintro f rfl
  refine ⟨_, setFanOf code s.frame, rfl, rfl, ?_, lo_setHi _ _, ?_, sameButBytes_setBytes s _ .empty⟩
  · rw [← fanOrDefault_eq]
    exact hi_setHi _ _
  · rw [setFanOf_eq]
    exact sameBytesBut_setByte s.frame _ (by omega)

/-- Settles O13: the digits of `tempOrDefault`, which is at most 30 and so in the range of BCD. -/
theorem setTempWritesBcdOrTwentyFour : Obligations.SetTempWritesBcdOrTwentyFour := by
  refine fun a s => ⟨guardedExec_faults rfl, ?_⟩
  rintro f rfl
  have hle := tempOrDefault_le a
  refine ⟨_, setTempOf a s.frame, tempOrDefault a, rfl, rfl, tempOrDefault_cast a, ?_, ?_, ?_,
    sameButBytes_setBytes s _ .empty⟩
  · show ((hi (bcd8 (tempOrDefault a))).toNat : Int) = _
    rw [hi_bcd8 (by omega)]; rfl
  · show ((lo (bcd8 (tempOrDefault a))).toNat : Int) = _
    rw [lo_bcd8]; rfl
  · rw [setTempOf_eq]
    exact sameBytesBut_setByte s.frame _ (by omega)

/-- Settles O14: the two clauses are the two values of `timeOrZero`. -/
theorem setTimeWritesBothOrZeroesBoth : Obligations.SetTimeWritesBothOrZeroesBoth := by
  refine fun h m s => ⟨guardedExec_faults rfl, ?_⟩
  rintro f rfl
  refine ⟨_, setTimeOf h m s.frame, rfl, rfl, ?inRange, ?outOfRange, ?_, sameButBytes_setBytes s _ .empty⟩
  case inRange =>
    rintro ⟨h0, h23, m0, m59⟩
    simp only [setTimeOf, timeOrZero_in ⟨h0, h23⟩ ⟨m0, m59⟩]
    rw [hi_bcd8 (by omega), hi_bcd8 (by omega), lo_bcd8, lo_bcd8]
    omega
  case outOfRange =>
    intro hn
    simp only [setTimeOf, timeOrZero_out fun ⟨⟨h0, h23⟩, m0, m59⟩ => hn ⟨h0, h23, m0, m59⟩]
    exact ⟨rfl, rfl⟩
  · rw [setTimeOf_eq]
    exact sameBytesBut_setByte_setByte s.frame _ _ (by omega) (by omega)

/-- Settles O15: both setters write the same `timer8`, one to byte 4 and one to byte 5. -/
theorem timerSettersWriteTheirTimerByte : Obligations.TimerSettersWriteTheirTimerByte := by
  refine fun h hf act s => ⟨fun hW => ⟨guardedExec_faults rfl hW, guardedExec_faults rfl hW⟩, ?_⟩
  rintro f rfl
  refine ⟨⟨_, setOnTimerOf h hf act s.frame, rfl, rfl, active_timer8 _ _ _, half_timer8 _ _ _,
      tens_timer8_timerHourOrZero _ _ _, lo_timer8_timerHourOrZero _ _ _, ?_, sameButBytes_setBytes s _ .empty⟩,
    ⟨_, setOffTimerOf h hf act s.frame, rfl, rfl, active_timer8 _ _ _, half_timer8 _ _ _,
      tens_timer8_timerHourOrZero _ _ _, lo_timer8_timerHourOrZero _ _ _, ?_, sameButBytes_setBytes s _ .empty⟩⟩
  · rw [setOnTimerOf_eq]
    exact sameBytesBut_setByte s.frame _ (by omega)
  · rw [setOffTimerOf_eq]
    exact sameBytesBut_setByte s.frame _ (by omega)

/-- R264 for one bit: a change of a bit of a valid frame's byte 7 leaves a frame that fails IS_VALID. -/
theorem not_frameValid_setBit {f : Frame} {j : Nat} {v : Bool} (hj : j < 8) (hvalid : frameValid f = true)
    (hv : bitOf f.b7 j ≠ v) : frameValid (f.setByte 7 (setBit f.b7 j v)) = false :=
  frameValid_setByte_of_changed (Frame.byte?_seven f) (by omega) (setBit_keeps_nibble f.b7 v hj) hvalid
    (Frame.setByte_ne (Frame.byte?_seven f) (setBit_ne hj hv) (by omega))

/-- Settles O16: one bit of byte 7 each, and `not_frameValid_setBit` for a valid frame. -/
theorem swingAndSleepSettersWriteOneBit : Obligations.SwingAndSleepSettersWriteOneBit := by
  refine fun v s => ⟨fun hW => ⟨guardedExec_faults rfl hW, guardedExec_faults rfl hW⟩, ?_⟩
  rintro f rfl
  refine ⟨⟨_, setSwingOf v s.frame, rfl, rfl, fun j _ => bitOf_setBit _ _ _ _ (by omega),
      not_frameValid_setBit (by omega), ?_, sameButBytes_setBytes s _ .empty⟩,
    ⟨_, setSleepOf v s.frame, rfl, rfl, fun j _ => bitOf_setBit _ _ _ _ (by omega),
      not_frameValid_setBit (by omega), ?_, sameButBytes_setBytes s _ .empty⟩⟩
  all_goals exact sameBytesBut_setByte s.frame _ (by omega)

/-- Settles O17: bit 3 of byte 7, and MODULATE only answers. -/
theorem powerToggleSetterWritesBitThree : Obligations.PowerToggleSetterWritesBitThree := by
  refine fun v s => ⟨guardedExec_faults rfl, ?_⟩
  rintro f rfl
  exact ⟨_, _, setPowerToggleOf v s.frame, rfl, rfl, fun j _ => bitOf_setBit _ _ _ _ (by omega),
    sameBytesBut_setByte s.frame _ (by omega), sameButBytes_setBytes s _ .empty, rfl, rfl⟩

end Sys2Proof.Machine
end

