-- ==== Sys2Proof/Proofs/FieldFamily.lean ====
section
/-! PROOFS. The laws of the field family (R143): a setter writes the bits of its field, to values that do not depend on
FRAME, and keeps every other bit; a getter reads the bits of its field alone. The obligations follow bit by bit. -/

namespace Sys2Proof.Machine

/-! ## The bit sets -/

/-- The first data bit of a field, and the first after it: every field is one stretch of the line. -/
def fieldSpan : Field → Nat × Nat
  | .mode => (8, 12)
  | .fan => (12, 16)
  | .time => (16, 32)
  | .onTimer => (32, 40)
  | .offTimer => (40, 48)
  | .temp => (48, 56)
  | .swing => (56, 57)
  | .sleep => (57, 58)
  | .powerToggle => (59, 60)

theorem fieldHasBit_iff (X : Field) (n : Nat) :
    fieldHasBit X n = true ↔ (fieldSpan X).1 ≤ n ∧ n < (fieldSpan X).2 := by
  cases X <;> simp only [fieldHasBit, fieldSpan, Bool.and_eq_true, decide_eq_true_eq] <;> omega

/-- Of two fields one ends before the other begins. -/
theorem fieldSpan_disjoint (X Y : Field) (h : X ≠ Y) :
    (fieldSpan X).2 ≤ (fieldSpan Y).1 ∨ (fieldSpan Y).2 ≤ (fieldSpan X).1 := by
  revert h
  cases X <;> cases Y <;> decide

theorem fieldSpan_le (X : Field) : (fieldSpan X).2 ≤ 60 := by
  cases X <;> decide

theorem field_unique {X Y : Field} {n : Nat} (hX : fieldHasBit X n = true) (hY : fieldHasBit Y n = true) : X = Y := by
  by_contra hne
  rw [fieldHasBit_iff] at hX hY
  have := fieldSpan_disjoint X Y hne
  omega

theorem fieldHasBit_of_ne {X Y : Field} {n : Nat} (hne : X ≠ Y) (hX : fieldHasBit X n = true) :
    fieldHasBit Y n = false :=
  Bool.eq_false_iff.2 fun hY => hne (field_unique hX hY)

theorem checksumHasBit_of_field {X : Field} {n : Nat} (h : fieldHasBit X n = true) : checksumHasBit n = false := by
  have hn := ((fieldHasBit_iff X n).1 h).2
  have := fieldSpan_le X
  simp only [checksumHasBit, Bool.and_eq_false_iff, decide_eq_false_iff_not]
  omega

/-- Bit 2 of byte 7 belongs to no field (D9). -/
theorem fieldHasBit_58 (X : Field) : fieldHasBit X 58 = false := by
  cases X <;> rfl

/-! ## What a setter does to each data bit -/

/-- A write of a byte that keeps a bit of it keeps that data bit of the frame. -/
theorem Frame.dataBit_setByte_kept {f : Frame} {a n : Nat} {b v : Byte} (hb : f.byte? a = some b) (ha : a < 8)
    (h : n / 8 = a → bitOf v (n % 8) = bitOf b (n % 8)) : (f.setByte a v).dataBit n = f.dataBit n :=
  Frame.dataBit_setByte f ha fun hn => by rw [h hn, Frame.dataBit, hn, hb]

/-- A setter keeps every data bit outside its field. -/
theorem dataBit_setterOf_outside {i : Instr} {X : Field} (hi : setterField i = some X) (f : Frame) {n : Nat}
    (hn : fieldHasBit X n = false) : (setterOf i f).dataBit n = f.dataBit n := by
  cases i <;> cases hi <;>
    simp only [fieldHasBit, Bool.and_eq_false_iff, decide_eq_false_iff_not] at hn
  case setMode code =>
    exact Frame.dataBit_setByte_kept f.byte?_one (by omega) fun h => bitOf_setLo _ _ (by omega)
  case setFan code =>
    exact Frame.dataBit_setByte_kept f.byte?_one (by omega) fun h => bitOf_setHi _ _ (by omega)
  case setTime h m =>
    show (setTimeOf h m f).dataBit n = _
    rw [setTimeOf_eq, Frame.dataBit_setByte_eq _ _ _ (by omega), Frame.dataBit_setByte_eq _ _ _ (by omega),
      if_neg (by omega), if_neg (by omega)]
  case setTemp => exact Frame.dataBit_setByte f (a := 6) (by omega) fun h => by omega
  case setOnTimer => exact Frame.dataBit_setByte f (a := 4) (by omega) fun h => by omega
  case setOffTimer => exact Frame.dataBit_setByte f (a := 5) (by omega) fun h => by omega
  all_goals
    refine Frame.dataBit_setByte_kept f.byte?_seven (by omega) fun h => ?_
    rw [bitOf_setBit _ _ _ _ (by omega), if_neg (by omega)]

/-- Writes of one byte that agree on a bit of it give that data bit the same value, whatever the frames. -/
theorem Frame.dataBit_setByte_congr (f g : Frame) {a n : Nat} {v w : Byte} (ha : a < 8) (hn : n / 8 = a)
    (h : bitOf v (n % 8) = bitOf w (n % 8)) : (f.setByte a v).dataBit n = (g.setByte a w).dataBit n := by
  rw [Frame.dataBit_setByte_eq _ _ _ ha, Frame.dataBit_setByte_eq _ _ _ ha, if_pos hn, if_pos hn, h]

/-- A setter gives each data bit of its field a value that does not depend on the frame. -/
theorem dataBit_setterOf_own {i : Instr} {X : Field} (hi : setterField i = some X) (f g : Frame) {n : Nat}
    (hn : fieldHasBit X n = true) : (setterOf i f).dataBit n = (setterOf i g).dataBit n := by
  cases i <;> cases hi <;> simp only [fieldHasBit, Bool.and_eq_true, decide_eq_true_eq] at hn
  case setMode code =>
    refine Frame.dataBit_setByte_congr f g (a := 1) (by omega) (by omega) ?_
    rw [setLo, setLo, bitOf_nibbles_low _ _ (by omega), bitOf_nibbles_low _ _ (by omega)]
  case setFan code =>
    refine Frame.dataBit_setByte_congr f g (a := 1) (by omega) (by omega) ?_
    rw [setHi, setHi, bitOf_nibbles_high _ _ (by omega), bitOf_nibbles_high _ _ (by omega)]
  case setTime h m =>
    simp only [setterOf, setTimeOf_eq, Frame.dataBit_setByte_eq _ n _ (show 2 < 8 by omega),
      Frame.dataBit_setByte_eq _ n _ (show 3 < 8 by omega)]
    split_ifs
    · rfl
    · rfl
    · omega
  case setTemp => exact Frame.dataBit_setByte_congr f g (a := 6) (by omega) (by omega) rfl
  case setOnTimer => exact Frame.dataBit_setByte_congr f g (a := 4) (by omega) (by omega) rfl
  case setOffTimer => exact Frame.dataBit_setByte_congr f g (a := 5) (by omega) (by omega) rfl
  all_goals
    refine Frame.dataBit_setByte_congr f g (a := 7) (by omega) (by omega) ?_
    rw [bitOf_setBit _ _ _ _ (by omega), bitOf_setBit _ _ _ _ (by omega), if_pos (by omega), if_pos (by omega)]

theorem setterOf_comm {i j : Instr} {X Y : Field} (hi : setterField i = some X) (hj : setterField j = some Y)
    (hne : X ≠ Y) (f : Frame) : setterOf j (setterOf i f) = setterOf i (setterOf j f) := by
  refine Frame.ext_dataBits fun n _ => ?_
  by_cases hX : fieldHasBit X n = true
  · rw [dataBit_setterOf_outside hj _ (fieldHasBit_of_ne hne hX), dataBit_setterOf_own hi f (setterOf j f) hX]
  · rw [dataBit_setterOf_outside hi (setterOf j f) (by simpa using hX)]
    by_cases hY : fieldHasBit Y n = true
    · exact dataBit_setterOf_own hj _ _ hY
    · rw [dataBit_setterOf_outside hj _ (by simpa using hY), dataBit_setterOf_outside hj _ (by simpa using hY),
        dataBit_setterOf_outside hi _ (by simpa using hX)]

theorem setterOf_setterOf {i j : Instr} {X : Field} (hi : setterField i = some X) (hj : setterField j = some X)
    (f : Frame) : setterOf j (setterOf i f) = setterOf j f := by
  refine Frame.ext_dataBits fun n _ => ?_
  by_cases hX : fieldHasBit X n = true
  · exact dataBit_setterOf_own hj _ _ hX
  · have hX : fieldHasBit X n = false := by simpa using hX
    rw [dataBit_setterOf_outside hj _ hX, dataBit_setterOf_outside hi _ hX, dataBit_setterOf_outside hj _ hX]

/-! ## What a getter reads -/

theorem lo_congr_bits {a b : Byte} (h : ∀ j < 4, bitOf a j = bitOf b j) : lo a = lo b := by
  apply BitVec.eq_of_getLsbD_eq
  intro i hi
  simpa [lo, bitOf, hi] using h i hi

theorem hi_congr_bits {a b : Byte} (h : ∀ j < 8, 4 ≤ j → bitOf a j = bitOf b j) : hi a = hi b := by
  apply BitVec.eq_of_getLsbD_eq
  intro i hi
  simpa [Machine.hi, bitOf, hi] using h (4 + i) (by omega) (by omega)

/-- A getter's answer depends on the data bits of its field alone. -/
theorem getterOf_congr {j : Instr} {Y : Field} (hj : getterField j = some Y) {f g : Frame}
    (h : ∀ n < 64, fieldHasBit Y n = true → f.dataBit n = g.dataBit n) : getterOf j f = getterOf j g := by
  have bit_eq : ∀ {a k : Nat} {b c : Byte}, f.byte? a = some b → g.byte? a = some c → a < 8 → k < 8 →
      fieldHasBit Y (8 * a + k) = true → bitOf b k = bitOf c k := fun hb hc ha hk hY => by
    rw [← Frame.dataBit_at f hk hb, ← Frame.dataBit_at g hk hc]
    exact h _ (by omega) hY
  have byte_eq : ∀ {a : Nat} {b c : Byte}, f.byte? a = some b → g.byte? a = some c → a < 8 →
      (∀ k < 8, fieldHasBit Y (8 * a + k) = true) → b = c := fun hb hc ha hY =>
    byte_ext_bits fun k hk => bit_eq hb hc ha hk (hY k hk)
  cases j <;> cases hj <;> simp only [getterOf]
  case getSwing | getSleep | getPowerToggle => rw [bit_eq f.byte?_seven g.byte?_seven (by omega) (by omega) rfl]
  case' getMode => rw [lo_congr_bits fun k hk => bit_eq f.byte?_one g.byte?_one (by omega) (by omega) ?_]
  case' getFan => rw [hi_congr_bits fun k hk h4 => bit_eq f.byte?_one g.byte?_one (by omega) hk ?_]
  case' getTemp => rw [byte_eq f.byte?_six g.byte?_six (by omega) fun k hk => ?_]
  case' getTime =>
    rw [byte_eq f.byte?_three g.byte?_three (by omega) fun k hk => ?_,
      byte_eq f.byte?_two g.byte?_two (by omega) fun k hk => ?_]
  case' getOnTimer => rw [byte_eq f.byte?_four g.byte?_four (by omega) fun k hk => ?_]
  case' getOffTimer => rw [byte_eq f.byte?_five g.byte?_five (by omega) fun k hk => ?_]
  all_goals
    simp only [fieldHasBit, Bool.and_eq_true, decide_eq_true_eq]
    omega

/-- A setter of another field changes no answer. -/
theorem getterOf_setterOf {i j : Instr} {X Y : Field} (hi : setterField i = some X) (hj : getterField j = some Y)
    (hne : X ≠ Y) (f : Frame) : getterOf j (setterOf i f) = getterOf j f :=
  getterOf_congr hj fun _ _ hY => dataBit_setterOf_outside hi f (fieldHasBit_of_ne hne.symm hY)

/-! ## The obligations -/

/-- FINALIZE keeps every data bit outside the checksum nibble (R173). -/
theorem dataBit_finalizeOf (f : Frame) {n : Nat} (hn : n < 64) (hc : checksumHasBit n = false) :
    (finalizeOf f).dataBit n = f.dataBit n := by
  simp only [checksumHasBit, Bool.and_eq_false_iff, decide_eq_false_iff_not] at hc
  exact Frame.dataBit_setByte_kept f.byte?_seven (by omega) fun h => bitOf_setHi _ _ (by omega)

/-- Settles O24: fields are disjoint stretches that end before the checksum nibble (`fieldSpan`), and each write keeps
the bits outside its own. -/
theorem settersWriteOnlyTheirOwnBits : Obligations.SettersWriteOnlyTheirOwnBits := by
  refine ⟨fun _ _ _ => field_unique, fun _ _ => checksumHasBit_of_field, ?setter, ?finalize⟩
  case setter =>
    rintro i X s f hi rfl
    exact ⟨_, _, exec_setter hi s, rfl, fun n _ => dataBit_setterOf_outside hi s.frame⟩
  case finalize =>
    rintro s f rfl
    exact ⟨_, _, rfl, rfl, fun n hn => dataBit_finalizeOf s.frame hn⟩

/-- Settles O25: both orders run through `updateFrame`, with frames that agree (`setterOf_comm`). -/
theorem settersOfDifferentFieldsCommute : Obligations.SettersOfDifferentFieldsCommute := by
  rintro i j X Y s f hi hj hne rfl
  refine ⟨_, _, _, exec_setter hi s, exec_setter hj _, exec_setter hj s, ?_⟩
  rw [exec_setter hi]
  show Host.Outcome.next ((s.setBytes (setterOf i (setterOf j s.frame))).answer .empty) = _
  rw [← setterOf_comm hi hj hne]
  rfl

/-- Settles O26: the second write decides every bit of the field (`setterOf_setterOf`). -/
theorem secondSetterOfAFieldWins : Obligations.SecondSetterOfAFieldWins := by
  rintro i j X s f hi hj rfl
  refine ⟨_, _, exec_setter hi s, exec_setter hj _, ?_⟩
  rw [exec_setter hj]
  show Host.Outcome.next ((s.setBytes (setterOf j s.frame)).answer .empty) = _
  rw [← setterOf_setterOf hi hj]
  rfl

/-- Settles O27: the getter reads bits the setter keeps (`getterOf_setterOf`). -/
theorem getterIsUnaffectedByOtherSetters : Obligations.GetterIsUnaffectedByOtherSetters := by
  rintro i j X Y s f hi hj hne rfl
  exact ⟨_, _, _, exec_setter hi s, exec_getter hj _, exec_getter hj s, getterOf_setterOf hi hj hne s.frame⟩

/-- A setter of one nibble or one bit is a write of one byte that keeps one of its nibbles. -/
theorem setterOf_keeps_nibble {i : Instr} {X : Field} (hi : setterField i = some X) (h6 : X ≠ .temp) (h2 : X ≠ .time)
    (h4 : X ≠ .onTimer) (h5 : X ≠ .offTimer) (f : Frame) :
    ∃ a b v, a < 8 ∧ f.byte? a = some b ∧ setterOf i f = f.setByte a v ∧ (Machine.hi v = Machine.hi b ∨ lo v = lo b) := by
  cases i <;> cases hi
  case setMode => exact ⟨1, f.b1, _, by omega, rfl, setModeOf_eq _ f, .inl (hi_setLo _ _)⟩
  case setFan => exact ⟨1, f.b1, _, by omega, rfl, setFanOf_eq _ f, .inr (lo_setHi _ _)⟩
  case setSwing => exact ⟨7, f.b7, _, by omega, rfl, setSwingOf_eq _ f, setBit_keeps_nibble _ _ (by omega)⟩
  case setSleep => exact ⟨7, f.b7, _, by omega, rfl, setSleepOf_eq _ f, setBit_keeps_nibble _ _ (by omega)⟩
  case setPowerToggle =>
    exact ⟨7, f.b7, _, by omega, rfl, setPowerToggleOf_eq _ f, setBit_keeps_nibble _ _ (by omega)⟩
  case setTemp => exact absurd rfl h6
  case setTime => exact absurd rfl h2
  case setOnTimer => exact absurd rfl h4
  case setOffTimer => exact absurd rfl h5

/-- Settles O35: a narrow setter changes at most one nibble, and that makes a right checksum wrong. -/
theorem narrowSettersMakeTheChecksumStale : Obligations.NarrowSettersMakeTheChecksumStale := by
  rintro i X s f hi h6 h2 h4 h5 rfl hvalid
  obtain ⟨a, b, v, ha, hb, hset, hone⟩ := setterOf_keeps_nibble hi h6 h2 h4 h5 s.frame
  refine ⟨_, setterOf i s.frame, exec_setter hi s, rfl, fun hne => ?_⟩
  rw [hset] at hne ⊢
  exact frameValid_setByte_of_changed hb ha hone hvalid hne

/-- Settles O36: temperatures 16 and 25 have the same sum of digits, so the frame `16 12 00 00 00 00 16 10`, valid at
16 degrees, is valid at 25. -/
theorem aWideSetterCanKeepTheChecksumRight : Obligations.AWideSetterCanKeepTheChecksumRight :=
  ⟨State.reset.setFrame ⟨0x16, 0x12, 0, 0, 0, 0, 0x16, 0x10⟩, _, _, ⟨0x16, 0x12, 0, 0, 0, 0, 0x25, 0x10⟩, 25,
    rfl, by decide, rfl, rfl, by decide, by decide⟩

end Sys2Proof.Machine
end

