-- ==== Sys2Proof/Proofs/Getters.lean ====
section
/-! PROOFS. The getters (R124 to R140) and DECODE (R142): the arithmetic of BCD, the names of the nibbles, and the
obligations about what each answers. -/

namespace Sys2Proof.Machine

/-! ## BCD -/

theorem unbcd_toNat (b : Byte) : unbcd b = 10 * (b.toNat / 16) + b.toNat % 16 := by
  rw [unbcd, hi_toNat, lo_toNat]

theorem unbcd_bcd8 {v : Nat} (h : v ≤ 99) : unbcd (bcd8 v) = v := by
  rw [unbcd, hi_bcd8 h, lo_bcd8]
  exact Nat.div_add_mod v 10

/-- Settles O22: each digit stands in its nibble, and disassembly weighs the two nibbles by 10 and 1. -/
theorem bcdDigitsAndRoundTrip : Obligations.BcdDigitsAndRoundTrip :=
  ⟨fun v hv => ⟨hi_bcd8 hv, lo_bcd8 v, unbcd_bcd8 hv⟩, unbcd_toNat⟩

/-! ## Names -/

theorem modeName_iff (n : Nibble) :
    (modeName n = .dry ↔ n = 0x1) ∧ (modeName n = .cool ↔ n = 0x2) ∧ (modeName n = .fan ↔ n = 0x4) := by
  revert n
  decide

theorem fanName_iff (n : Nibble) :
    (fanName n = .auto ↔ n = 0x1) ∧ (fanName n = .turbo ↔ n = 0x3) ∧ (fanName n = .speed3 ↔ n = 0x2) ∧
    (fanName n = .speed2 ↔ n = 0x4) ∧ (fanName n = .speed1 ↔ n = 0x8) ∧ (fanName n = .quiet ↔ n = 0x9) := by
  revert n
  decide

/-- Settles O18: the name is a function of the nibble, pinned by `modeName_iff` and `fanName_iff`. -/
theorem modeAndFanGettersAnswerNameAndNibble : Obligations.ModeAndFanGettersAnswerNameAndNibble := by
  refine fun s => ⟨fun hW => ⟨guardedExec_faults rfl hW, guardedExec_faults rfl hW⟩, ?_⟩
  rintro f rfl
  obtain ⟨hdry, hcool, hfan⟩ := modeName_iff (lo s.frame.b1)
  obtain ⟨hauto, hturbo, hspeed3, hspeed2, hspeed1, hquiet⟩ := fanName_iff (hi s.frame.b1)
  exact ⟨⟨_, _, rfl, rfl, hdry, hcool, hfan, sameButResult_answer s _⟩,
    ⟨_, _, rfl, rfl, hauto, hturbo, hspeed3, hspeed2, hspeed1, hquiet, sameButResult_answer s _⟩⟩

/-! ## Temperature and time -/

/-- GET_TEMP's default on a raw value, without the detour over the integers (R128). -/
theorem tempOrDefault_natCast (raw : Nat) : tempOrDefault raw = if 16 ≤ raw ∧ raw ≤ 30 then raw else 24 := by
  have := tempOrDefault_cast raw
  split_ifs at this ⊢ <;> omega

/-- Settles O19: both answer `unbcd` of their bytes, and GET_TEMP the default beside it. -/
theorem tempAndTimeGettersAnswerRawValues : Obligations.TempAndTimeGettersAnswerRawValues := by
  refine fun s => ⟨fun hW => ⟨guardedExec_faults rfl hW, guardedExec_faults rfl hW⟩, ?_⟩
  rintro f rfl
  exact ⟨⟨_, _, _, rfl, rfl, rfl, tempOrDefault_natCast _, sameButResult_answer s _⟩,
    ⟨_, rfl, rfl, sameButResult_answer s _⟩⟩

/-! ## Timers -/

/-- Settles O20: the digits in arithmetic (`timerHour_eq`); the two flags are bits as they stand. -/
theorem timerGettersAnswerTheTimerByte : Obligations.TimerGettersAnswerTheTimerByte := by
  refine fun s => ⟨fun hW => ⟨guardedExec_faults rfl hW, guardedExec_faults rfl hW⟩, ?_⟩
  rintro f rfl
  have answer_eq : ∀ b : Byte, Result.timer (timerHour b) (timerHalf b) (timerActive b) =
      .timer (b.toNat / 16 % 4 * 10 + b.toNat % 16) (b.getLsbD 6) (b.getLsbD 7) := fun b => by
    rw [timerHour_eq, Nat.mul_comm]; rfl
  exact ⟨⟨_, rfl, answer_eq s.frame.b4, sameButResult_answer s _⟩,
    ⟨_, rfl, answer_eq s.frame.b5, sameButResult_answer s _⟩⟩

/-! ## Flags -/

/-- No getter reads bit 2 of byte 7, data bit 58 (D9). -/
theorem getterOf_setBit_two {j : Instr} {X : Field} (hj : getterField j = some X) (f : Frame) (v : Bool) :
    getterOf j (f.setByte 7 (setBit f.b7 2 v)) = getterOf j f := by
  refine getterOf_congr hj fun n _ hX => Frame.dataBit_setByte_kept f.byte?_seven (by omega) fun h7 => ?_
  have h58 : n ≠ 58 := by
    rintro rfl
    rw [fieldHasBit_58] at hX
    cases hX
  rw [bitOf_setBit _ _ _ _ (by omega), if_neg (by omega)]

/-- Settles O21: each flag getter answers its bit, and `getterOf_setBit_two` says the rest. -/
theorem flagGettersAnswerTheirBit : Obligations.FlagGettersAnswerTheirBit := by
  refine fun s => ⟨fun hW => ⟨guardedExec_faults rfl hW, guardedExec_faults rfl hW, guardedExec_faults rfl hW⟩, ?_⟩
  rintro f rfl
  refine ⟨⟨_, rfl, rfl, sameButResult_answer s _⟩, ⟨_, rfl, rfl, sameButResult_answer s _⟩,
    ⟨_, rfl, rfl, sameButResult_answer s _⟩, ?bitTwo⟩
  case bitTwo =>
    intro v j X t u hj ht hu
    rw [exec_getter hj] at ht hu
    rw [readFrame_next ht, readFrame_next hu]
    exact getterOf_setBit_two hj s.frame v

/-! ## DECODE -/

/-- Settles O38: DECODE's fields are the getters' own expressions. -/
theorem decodeAnswersWhatTheGettersAnswer : Obligations.DecodeAnswersWhatTheGettersAnswer := by
  refine fun s => ⟨guardedExec_faults rfl, ?_⟩
  rintro f rfl
  exact ⟨_, decodeFrame s.frame, rfl, rfl, sameButResult_answer s _, rfl, rfl, rfl, rfl, rfl, rfl, rfl, rfl, rfl⟩

end Sys2Proof.Machine
end

