-- ==== Sys2Proof/Proofs/ChecksumCommands.lean ====
section
/-! PROOFS. CHECKSUM, FINALIZE and IS_VALID (R172 to R176), and the obligations about them. -/

namespace Sys2Proof.Machine

/-! ## The finalized frame -/

@[simp] theorem cs_finalizeOf (f : Frame) : cs (finalizeOf f) = cs f := cs_of_same_low (lo_setHi f.b7 (cs f))

@[simp] theorem hi_b7_finalizeOf (f : Frame) : hi (finalizeOf f).b7 = cs f := hi_setHi f.b7 (cs f)

theorem frameValid_finalizeOf_iff (f : Frame) : frameValid (finalizeOf f) = true ↔ f.b0 = headerByte := by
  rw [frameValid_iff, hi_b7_finalizeOf, cs_finalizeOf]
  exact and_iff_left rfl

theorem finalizeOf_eq (f : Frame) : finalizeOf f = f.setByte 7 (setHi f.b7 (cs f)) := rfl

/-- A frame with a right checksum is finalized already. -/
theorem finalizeOf_of_right {f : Frame} (h : hi f.b7 = cs f) : finalizeOf f = f := by
  have h7 : setHi f.b7 (cs f) = f.b7 := by rw [setHi, ← h, nibbles_hi_lo]
  rw [finalizeOf_eq, h7]
  exact Frame.setByte_self f.byte?_seven (by omega)

theorem finalizeOf_finalizeOf (f : Frame) : finalizeOf (finalizeOf f) = finalizeOf f :=
  finalizeOf_of_right (by rw [hi_b7_finalizeOf, cs_finalizeOf])

/-! ## The obligations -/

/-- Settles O29: FINALIZE does not change the checksum (`cs_finalizeOf`). -/
theorem checksumCommandAnswersTheChecksum : Obligations.ChecksumCommandAnswersTheChecksum := by
  refine fun s => ⟨guardedExec_faults rfl, ?_⟩
  rintro f rfl
  exact ⟨_, _, _, rfl, rfl, sameButResult_answer s _, rfl, rfl, congrArg Result.nibble (cs_finalizeOf s.frame)⟩

/-- Settles O30: one nibble of byte 7; the second FINALIZE writes what stands there (`finalizeOf_finalizeOf`). -/
theorem finalizeWritesTheChecksumNibble : Obligations.FinalizeWritesTheChecksumNibble := by
  refine fun s => ⟨guardedExec_faults rfl, ?_⟩
  rintro f rfl
  refine ⟨_, finalizeOf s.frame, rfl, rfl, hi_b7_finalizeOf _, lo_setHi _ _, ?_, sameButBytes_setBytes s _ .empty, ?_, ?_⟩
  · exact sameBytesBut_setByte s.frame _ (by omega)
  · exact fun h0 => Bool.eq_false_iff.2 fun hv => h0 ((frameValid_finalizeOf_iff s.frame).1 hv)
  · show Host.Outcome.next ((s.setBytes (finalizeOf (finalizeOf s.frame))).answer .empty) = _
    rw [finalizeOf_finalizeOf]

/-- Settles O31: IS_VALID answers `frameValid`, whose two tests are the rule's. -/
theorem isValidTestsHeaderAndChecksumOnly : Obligations.IsValidTestsHeaderAndChecksumOnly := by
  refine fun s => ⟨guardedExec_faults rfl, ?_⟩
  rintro f rfl
  exact ⟨_, _, rfl, rfl, frameValid_iff s.frame, sameButResult_answer s _⟩

/-- Settles O32: on a finalized frame only the test of byte 0 is left (`frameValid_finalizeOf_iff`). -/
theorem finalizedFrameIsValidIffHeaderIsRight : Obligations.FinalizedFrameIsValidIffHeaderIsRight := by
  rintro s f rfl
  exact ⟨_, _, _, rfl, rfl, rfl, frameValid_finalizeOf_iff s.frame⟩

theorem flipBit_eq {f : Frame} {n : Nat} {b : Byte} (hb : f.byte? (n / 8) = some b) :
    flipBit f n = f.setByte (n / 8) (setBit b (n % 8) (!bitOf b (n % 8))) := by
  rw [flipBit, hb]

/-- Settles O33: a flipped bit is a change of one nibble, so the checksum is wrong. -/
theorem everySingleBitErrorIsDetected : Obligations.EverySingleBitErrorIsDetected := by
  intro f n s hn hc hs
  obtain ⟨b, hb, -⟩ := f.exists_byte hn
  have hbyte : setBit b (n % 8) (!bitOf b (n % 8)) ≠ b := setBit_ne (by omega) (by simp)
  refine ⟨?_, _, rfl, congrArg Result.bit ?_⟩
  · rw [flipBit_eq hb]
    exact Frame.setByte_ne hb hbyte (by omega)
  · rw [hs, flipBit_eq hb]
    exact not_frameValid_of_wrong_sum
      (checksum_wrong_of_nibble_write hb (by omega) (setBit_keeps_nibble _ _ (by omega)) hbyte hc)

/-- Settles O34: the 1 more in byte 2 makes up for the 1 less in byte 6. -/
theorem severalBitErrorsCanCancel : Obligations.SeveralBitErrorsCanCancel := by
  constructor <;> decide

end Sys2Proof.Machine
end

