-- ==== Sys2Proof/Proofs/LogicalStates.lean ====
section
/-! PROOFS. ENCODE (R141) and the first half of R144: the frame ENCODE builds, byte by byte, and what DECODE reports of
it. -/

namespace Sys2Proof.Machine

/-! ## The frame ENCODE builds -/

@[simp] theorem encodeFrame_b0 (ls : LogicalState) : (encodeFrame ls).b0 = headerByte := rfl

theorem encodeFrame_b1 (ls : LogicalState) :
    (encodeFrame ls).b1 = setHi (setLo 0x00 (modeOrDefault ls.mode)) (fanOrDefault ls.fan) := rfl

@[simp] theorem hi_encodeFrame_b1 (ls : LogicalState) : hi (encodeFrame ls).b1 = fanOrDefault ls.fan := by
  rw [encodeFrame_b1, hi_setHi]

@[simp] theorem lo_encodeFrame_b1 (ls : LogicalState) : lo (encodeFrame ls).b1 = modeOrDefault ls.mode := by
  rw [encodeFrame_b1, lo_setHi, lo_setLo]

@[simp] theorem encodeFrame_b2 (ls : LogicalState) :
    (encodeFrame ls).b2 = bcd8 (timeOrZero ls.hour ls.minute).2 := rfl

@[simp] theorem encodeFrame_b3 (ls : LogicalState) :
    (encodeFrame ls).b3 = bcd8 (timeOrZero ls.hour ls.minute).1 := rfl

@[simp] theorem encodeFrame_b4 (ls : LogicalState) :
    (encodeFrame ls).b4 = timer8 (timerHourOrZero ls.onH) ls.onHalf ls.onAct := rfl

@[simp] theorem encodeFrame_b5 (ls : LogicalState) :
    (encodeFrame ls).b5 = timer8 (timerHourOrZero ls.offH) ls.offHalf ls.offAct := rfl

@[simp] theorem encodeFrame_b6 (ls : LogicalState) : (encodeFrame ls).b6 = bcd8 (tempOrDefault ls.temp) := rfl

theorem hi_encodeFrame_b7 (ls : LogicalState) : hi (encodeFrame ls).b7 = cs (encodeFrame ls) :=
  (hi_b7_finalizeOf _).trans (cs_finalizeOf _).symm

/-- The low bits of byte 7: the three flags, each in its place; bit 2 is that of the fresh frame, 0 (D9). -/
theorem bitOf_encodeFrame_b7 (ls : LogicalState) {j : Nat} (hj : j < 4) :
    bitOf (encodeFrame ls).b7 j =
      if j = 3 then ls.powerToggle else if j = 1 then ls.sleep else if j = 0 then ls.swing else false := by
  show bitOf (setHi (setBit (setBit (setBit 0x00 0 ls.swing) 1 ls.sleep) 3 ls.powerToggle) _) j = _
  rw [bitOf_setHi _ _ hj, bitOf_setBit _ _ _ _ (by omega), bitOf_setBit _ _ _ _ (by omega),
    bitOf_setBit _ _ _ _ (by omega), show bitOf 0x00 j = false from BitVec.getLsbD_zero]

theorem frameValid_encodeFrame (ls : LogicalState) : frameValid (encodeFrame ls) = true :=
  (frameValid_iff _).2 ⟨encodeFrame_b0 ls, hi_encodeFrame_b7 ls⟩

/-- Settles O37: the closed form is read off the composed setters, field by field. -/
theorem encodeBuildsTheClosedForm : Obligations.EncodeBuildsTheClosedForm := by
  intro ls s
  exact ⟨_, encodeFrame ls, rfl, rfl, rfl, rfl, hi_encodeFrame_b1 ls, lo_encodeFrame_b1 ls, rfl, rfl, rfl, rfl, rfl,
    hi_encodeFrame_b7 ls, bitOf_encodeFrame_b7 ls (by omega), bitOf_encodeFrame_b7 ls (by omega),
    bitOf_encodeFrame_b7 ls (by omega), bitOf_encodeFrame_b7 ls (by omega), frameValid_encodeFrame ls,
    sameButFrame_setFrame s (encodeFrame ls) .empty⟩

/-! ## What DECODE reports of it -/

/-- A mode code of R89 is kept and recognized. -/
theorem modeOrDefault_recognized {code : Byte} (h : code = 0x01 ∨ code = 0x02 ∨ code = 0x04) :
    (modeOrDefault code).setWidth 8 = code ∧ modeName (modeOrDefault code) ≠ .unrecognized := by
  rcases h with rfl | rfl | rfl <;> decide

/-- A fan code of R90 is kept and recognized. -/
theorem fanOrDefault_recognized {code : Byte}
    (h : code = 0x01 ∨ code = 0x02 ∨ code = 0x03 ∨ code = 0x04 ∨ code = 0x08 ∨ code = 0x09) :
    (fanOrDefault code).setWidth 8 = code ∧ fanName (fanOrDefault code) ≠ .unrecognized := by
  rcases h with rfl | rfl | rfl | rfl | rfl | rfl <;> decide

theorem unbcd_bcd8_tempOrDefault {a : Int} (h : 16 ≤ a ∧ a ≤ 30) : (unbcd (bcd8 (tempOrDefault a)) : Int) = a := by
  have := tempOrDefault_le a
  rw [unbcd_bcd8 (by omega)]
  exact tempOrDefault_in h

theorem unbcd_bcd8_timeOrZero {h m : Int} (hh : 0 ≤ h ∧ h ≤ 23) (hm : 0 ≤ m ∧ m ≤ 59) :
    (unbcd (bcd8 (timeOrZero h m).1) : Int) = h ∧ (unbcd (bcd8 (timeOrZero h m).2) : Int) = m := by
  rw [timeOrZero_in hh hm, unbcd_bcd8 (show h.toNat ≤ 99 by omega), unbcd_bcd8 (show m.toNat ≤ 99 by omega)]
  omega

theorem timerHour_timer8_timerHourOrZero {h : Int} (hh : 0 ≤ h ∧ h ≤ 23) (hf act : Bool) :
    (timerHour (timer8 (timerHourOrZero h) hf act) : Int) = h := by
  have := timerHourOrZero_le h
  rw [timerHour_timer8 (by omega), timerHourOrZero_cast, if_pos hh]

/-- R144: a valid logical state is what DECODE reports of its frame. -/
theorem reports_decodeFrame_encodeFrame {ls : LogicalState} (h : logicalValid ls) :
    reports ls (decodeFrame (encodeFrame ls)) := by
  obtain ⟨hmode, hfan, htemp, hhour, hminute, honH, hoffH⟩ := h
  obtain ⟨hmodeRaw, hmodeName⟩ := modeOrDefault_recognized hmode
  obtain ⟨hfanRaw, hfanName⟩ := fanOrDefault_recognized hfan
  obtain ⟨hh, hm⟩ := unbcd_bcd8_timeOrZero hhour hminute
  have hraw := unbcd_bcd8_tempOrDefault htemp
  have hkept : (tempOrDefault (unbcd (bcd8 (tempOrDefault ls.temp))) : Int) = ls.temp := by
    rw [hraw]; exact tempOrDefault_in htemp
  simp only [reports, decodeFrame, tempOf, hi_encodeFrame_b1, lo_encodeFrame_b1, encodeFrame_b2, encodeFrame_b3,
    encodeFrame_b4, encodeFrame_b5, encodeFrame_b6]
  exact ⟨hmodeRaw, hmodeName, hfanRaw, hfanName, hkept, hraw, hh, hm,
    timerHour_timer8_timerHourOrZero honH _ _, timerHalf_timer8 _ _ _, timerActive_timer8 _ _ _,
    timerHour_timer8_timerHourOrZero hoffH _ _, timerHalf_timer8 _ _ _, timerActive_timer8 _ _ _,
    bitOf_encodeFrame_b7 ls (by omega), bitOf_encodeFrame_b7 ls (by omega), bitOf_encodeFrame_b7 ls (by omega)⟩

/-- Settles O39: ENCODE, DECODE and IS_VALID complete, on the frame of `reports_decodeFrame_encodeFrame`. -/
theorem decodeOfEncodeReportsTheLogicalState : Obligations.DecodeOfEncodeReportsTheLogicalState := by
  intro ls s h
  exact ⟨_, _, _, _, rfl, rfl, rfl, reports_decodeFrame_encodeFrame h, rfl,
    congrArg Result.bit (frameValid_encodeFrame ls)⟩

end Sys2Proof.Machine
end

