-- ==== Sys2Proof/Proofs/Modulation.lean ====
section
/-! PROOFS. MODULATE (R193, R199): the items it answers, index by index, and the time they take. -/

namespace Sys2Proof.Machine

theorem emit_space_of_bit (b : Bool) :
    emit (.space, if b then .one else .short) = ⟨.space, if b then 944 else 368⟩ := by
  cases b <;> rfl

/-- Settles O41: each item is its symbol (`modulateFrame_getElem?`), and the symbols are laid out as R96 says. -/
theorem modulateLaysOutTheLine : Obligations.ModulateLaysOutTheLine := by
  refine fun s => ⟨guardedExec_faults rfl, ?_⟩
  rintro f rfl
  obtain ⟨hmark, hspace⟩ := lineSymbols_header s.frame
  obtain ⟨hfooter, hgap, hclose⟩ := lineSymbols_footer s.frame
  refine ⟨_, modulateFrame s.frame, rfl, rfl, sameButResult_answer s _, modulateFrame_length _, ?_, ?_, ?data, ?_, ?_, ?_⟩
  case data =>
    intro n hn
    obtain ⟨hmark, hspace⟩ := lineSymbols_data s.frame hn
    obtain ⟨b, hb, hbit⟩ := s.frame.exists_byte hn
    rw [modulateFrame_getElem?, modulateFrame_getElem?, hmark, hspace, hbit, Option.map_some, Option.map_some,
      emit_space_of_bit]
    exact ⟨rfl, b, hb, rfl⟩
  · rw [modulateFrame_getElem?, hmark]; rfl
  · rw [modulateFrame_getElem?, hspace]; rfl
  · rw [modulateFrame_getElem?, hfooter]; rfl
  · rw [modulateFrame_getElem?, hgap]; rfl
  · rw [modulateFrame_getElem?, hclose]; rfl

/-! ## The time of a transmission -/

theorem itemsDuration_append (e₁ e₂ : Items) : itemsDuration (e₁ ++ e₂) = itemsDuration e₁ + itemsDuration e₂ := by
  simp only [itemsDuration, List.map_append, List.sum_append]

/-- A data bit takes 736 us, and 576 us more when it is 1. -/
theorem itemsDuration_bitSymbols (b : Bool) :
    itemsDuration ((bitSymbols b).map emit) = 736 + 576 * b.toNat := by
  cases b <;> rfl

theorem itemsDuration_dataBits (bs : List Bool) :
    itemsDuration ((bs.flatMap bitSymbols).map emit) = 736 * bs.length + 576 * bs.count true := by
  induction bs with
  | nil => rfl
  | cons b bs ih =>
    rw [List.flatMap_cons, List.map_append, itemsDuration_append, itemsDuration_bitSymbols, ih, List.length_cons,
      List.count_cons]
    cases b <;> simp only [Bool.toNat_true, Bool.toNat_false, beq_self_eq_true, reduceIte, reduceCtorEq, beq_iff_eq] <;>
      omega

/-- R199: header, footer and closing mark take 32420 us, the data 736 us a bit and 576 us more for each 1. -/
theorem itemsDuration_modulateFrame (f : Frame) :
    itemsDuration (modulateFrame f) = 79524 + 576 * f.bits.count true := by
  rw [modulateFrame, lineSymbols, List.map_append, List.map_append, itemsDuration_append, itemsDuration_append,
    itemsDuration_dataBits, Frame.bits_length]
  show 7060 + (736 * 64 + 576 * f.bits.count true) + 25360 = _
  omega

/-- Settles O42: `itemsDuration_modulateFrame`, with at most 64 bits that are 1. -/
theorem transmissionLengthCountsTheOnes : Obligations.TransmissionLengthCountsTheOnes := by
  rintro s f rfl
  have hsum := itemsDuration_modulateFrame s.frame
  have hcount : s.frame.bits.count true ≤ 64 := List.count_le_length
  exact ⟨_, modulateFrame s.frame, rfl, rfl, hsum, by omega, by omega⟩

end Sys2Proof.Machine
end

