-- ==== Sys2Proof/Proofs/Demodulation.lean ====
section
/-! PROOFS. What `demod` accepts and what it reports (R194, R198, R233), said once in terms of the checks of the items:
it succeeds exactly on sound captures, and otherwise names the first check that fails. -/

namespace Sys2Proof.Machine

/-! ## The checks, by index -/

theorem itemOk_mark (w : Window) (e : Items) {n : Nat} (hn : n < 64) :
    itemOk w e (2 + 2 * n) ↔ itemMatches w e (2 + 2 * n) .mark .short = true := by
  rw [itemOk, phaseAt_mark hn]

theorem itemOk_space (w : Window) (e : Items) {n : Nat} (hn : n < 64) :
    itemOk w e (2 + 2 * n + 1) ↔
      itemMatches w e (2 + 2 * n + 1) .space .one = true ∨ itemMatches w e (2 + 2 * n + 1) .space .short = true := by
  rw [itemOk, phaseAt_space hn]

/-- The checks after the data: the footer's two items and the closing mark. -/
theorem itemOk_tail (w : Window) (e : Items) :
    (itemOk w e 130 ↔ itemMatches w e 130 .mark .short = true) ∧
    (itemOk w e 131 ↔ itemMatches w e 131 .space .gap = true) ∧
    (itemOk w e 132 ↔ itemMatches w e 132 .mark .headerMark = true) :=
  ⟨Iff.rfl, Iff.rfl, Iff.rfl⟩

theorem phaseReason_tail {p : Nat} (h130 : 130 ≤ p) (h133 : p < 133) : phaseReason (phaseAt p) = .footer := by
  interval_cases p <;> rfl

theorem not_itemOk_of_mismatch {w : Window} {e : Items} {k : Nat} {kd : Kind} {n : Nominal}
    (hk : itemOk w e k ↔ itemMatches w e k kd n = true) (h : itemMatches w e k kd n = false) : ¬ itemOk w e k := by
  rw [hk, h]
  exact Bool.false_ne_true

/-- All items before `k + 1` pass when those before `k` do and `k` does. -/
theorem itemsOk_succ {w : Window} {e : Items} {k : Nat} (h : ∀ j < k, itemOk w e j) (hk : itemOk w e k) :
    ∀ j < k + 1, itemOk w e j := fun j hj => by
  rcases Nat.lt_succ_iff_lt_or_eq.1 hj with h' | rfl
  · exact h j h'
  · exact hk

/-- The frame the first 130 items spell has a right checksum nibble. -/
def spellsRight (w : Window) (e : Items) : Prop := hi (spelledFrame w e).b7 = cs (spelledFrame w e)

/-- The first failing check of a failed demodulation: the checksum, which is judged after item 129, or an item. -/
def firstFailure (w : Window) (e : Items) (x : RxFailure) : Prop :=
  (∀ k < x.pos, itemOk w e k) ∧
  ((x = ⟨.checksum, 130⟩ ∧ ¬ spellsRight w e) ∨
   (x.pos < 133 ∧ ¬ itemOk w e x.pos ∧ x.reason = phaseReason (phaseAt x.pos) ∧ (130 ≤ x.pos → spellsRight w e)))

theorem firstFailure_item {w : Window} {e : Items} {r : Reason} {p : Nat} (hbefore : ∀ k < p, itemOk w e k) (hp : p < 133)
    (hbad : ¬ itemOk w e p) (hr : r = phaseReason (phaseAt p)) (hsum : 130 ≤ p → spellsRight w e) :
    firstFailure w e ⟨r, p⟩ :=
  ⟨hbefore, .inr ⟨hp, hbad, hr, hsum⟩⟩

/-! ## The outcomes -/

/-- R194, R198, R233: a demodulation succeeds after 133 items that pass, spelling a right checksum, or fails at its first
failing check. -/
theorem demod_outcome (w : Window) (e : Items) :
    ((∀ k < 133, itemOk w e k) ∧ spellsRight w e ∧ demod w e = .ok (spelledFrame w e, 133)) ∨
    (∃ x, demod w e = .error x ∧ firstFailure w e x) := by
  have hspell : readFrameOf w e = spelledFrame w e := (spelledFrame_eq w e).symm
  rcases demod_cases w e with ⟨h0, hd⟩ | ⟨h0, h1, hd⟩ | ⟨h0, h1, n, hn, hbits, hbit⟩ | ⟨hdata, hwrong, hd⟩ |
    ⟨hdata, hright, htail⟩
  · have hbefore : ∀ k < 0, itemOk w e k := fun k hk => absurd hk (Nat.not_lt_zero k)
    exact .inr ⟨_, hd, firstFailure_item hbefore (by omega) (not_itemOk_of_mismatch Iff.rfl h0) rfl (by omega)⟩
  · have hbefore : ∀ k < 1, itemOk w e k := fun k hk => by
      obtain rfl : k = 0 := by omega
      exact h0
    exact .inr ⟨_, hd, firstFailure_item hbefore (by omega) (not_itemOk_of_mismatch Iff.rfl h1) rfl (by omega)⟩
  · have hbefore : ∀ k < 2 + 2 * n, itemOk w e k :=
      items_before h0 h1 fun m hm => (bitPasses_iff w e (by omega)).1 (hbits m hm)
    rcases hbit with ⟨hm, hd⟩ | ⟨hm, hone, hshort, hd⟩
    · have hbad := not_itemOk_of_mismatch (itemOk_mark w e hn) hm
      exact .inr ⟨_, hd, firstFailure_item hbefore (by omega) hbad (by rw [phaseAt_mark hn]; rfl) (by omega)⟩
    · have hbefore := itemsOk_succ hbefore ((itemOk_mark w e hn).2 hm)
      have hbad : ¬ itemOk w e (2 + 2 * n + 1) := by rw [itemOk_space w e hn, hone, hshort]; simp
      exact .inr ⟨_, hd, firstFailure_item hbefore (by omega) hbad (by rw [phaseAt_space hn]; rfl) (by omega)⟩
  · rw [hspell] at hwrong
    exact .inr ⟨_, hd, (dataPasses_iff w e).1 hdata, .inl ⟨rfl, hwrong⟩⟩
  · rw [hspell] at hright htail
    obtain ⟨iff130, iff131, iff132⟩ := itemOk_tail w e
    have hbefore := (dataPasses_iff w e).1 hdata
    have fails : ∀ p, 130 ≤ p → p < 133 → (∀ k < p, itemOk w e k) → ¬ itemOk w e p →
        demod w e = .error ⟨.footer, p⟩ → ∃ x, demod w e = .error x ∧ firstFailure w e x :=
      fun p hp hp' hbefore hbad hd => ⟨_, hd, firstFailure_item hbefore hp' hbad (phaseReason_tail hp hp').symm
        fun _ => hright⟩
    rcases htail with ⟨h130, hd⟩ | ⟨h130, h131, hd⟩ | ⟨h130, h131, h132, hd⟩ | ⟨h130, h131, h132, hd⟩
    · exact .inr (fails 130 (by omega) (by omega) hbefore (not_itemOk_of_mismatch iff130 h130) hd)
    · exact .inr (fails 131 (by omega) (by omega) (itemsOk_succ hbefore (iff130.2 h130))
        (not_itemOk_of_mismatch iff131 h131) hd)
    · exact .inr (fails 132 (by omega) (by omega) (itemsOk_succ (itemsOk_succ hbefore (iff130.2 h130)) (iff131.2 h131))
        (not_itemOk_of_mismatch iff132 h132) hd)
    · exact .inl ⟨itemsOk_succ (itemsOk_succ (itemsOk_succ hbefore (iff130.2 h130)) (iff131.2 h131)) (iff132.2 h132),
        hright, hd⟩

theorem demod_error {w : Window} {e : Items} {x : RxFailure} (h : demod w e = .error x) : firstFailure w e x := by
  rcases demod_outcome w e with ⟨-, -, hd⟩ | ⟨y, hd, hy⟩
  · rw [h] at hd; cases hd
  · rw [h] at hd; cases hd; exact hy

theorem demod_ok {w : Window} {e : Items} {g : Frame} {p : Nat} (h : demod w e = .ok (g, p)) :
    (∀ k < 133, itemOk w e k) ∧ spellsRight w e ∧ g = spelledFrame w e ∧ p = 133 := by
  rcases demod_outcome w e with ⟨hok, hright, hd⟩ | ⟨y, hd, -⟩
  · rw [h] at hd; cases hd; exact ⟨hok, hright, rfl, rfl⟩
  · rw [h] at hd; cases hd

/-- A sound capture has no first failure. -/
theorem not_firstFailure {w : Window} {e : Items} {x : RxFailure} (hok : ∀ k < 133, itemOk w e k)
    (hright : spellsRight w e) : ¬ firstFailure w e x := by
  rintro ⟨-, ⟨-, hwrong⟩ | ⟨hpos, hbad, -⟩⟩
  · exact hwrong hright
  · exact hbad (hok _ hpos)

theorem demod_of_sound {w : Window} {e : Items} (hok : ∀ k < 133, itemOk w e k) (hright : spellsRight w e) :
    demod w e = .ok (spelledFrame w e, 133) := by
  rcases demod_outcome w e with ⟨-, -, hd⟩ | ⟨x, -, hx⟩
  · exact hd
  · exact absurd hx (not_firstFailure hok hright)

/-- Items that pass and spell a wrong checksum fail CHECKSUM at 130. -/
theorem demod_of_wrong_sum {w : Window} {e : Items} (hok : ∀ k < 133, itemOk w e k) (hwrong : ¬ spellsRight w e) :
    demod w e = .error ⟨.checksum, 130⟩ := by
  rcases demod_outcome w e with ⟨-, hright, -⟩ | ⟨x, hd, -, ⟨rfl, -⟩ | ⟨hpos, hbad, -⟩⟩
  · exact absurd hright hwrong
  · exact hd
  · exact absurd (hok _ hpos) hbad

/-- Settles O46: the statement is `firstFailure`. -/
theorem theFirstFailingCheckIsReported : Obligations.TheFirstFailingCheckIsReported :=
  fun _ _ _ h => demod_error h

/-! ## Where a demodulation can stop (R231) -/

theorem stopsAt_phaseReason {p : Nat} (hp : p < 133) :
    stopsAt (phaseReason (phaseAt p)).code p ∧ phaseReason (phaseAt p) ≠ .headerByte := by
  unfold phaseAt
  split_ifs
  · exact ⟨.inl ⟨rfl, by omega⟩, by decide⟩
  · exact ⟨.inr (.inl ⟨rfl, by omega, by omega⟩), fun h => by cases h⟩
  · exact ⟨.inr (.inl ⟨rfl, by omega, by omega⟩), fun h => by cases h⟩
  · exact ⟨.inr (.inr (.inr (.inl ⟨rfl, by omega, by omega⟩))), by decide⟩
  · exact ⟨.inr (.inr (.inr (.inl ⟨rfl, by omega, by omega⟩))), by decide⟩
  · omega

theorem demod_stopsAt {w : Window} {e : Items} {x : RxFailure} (h : demod w e = .error x) :
    stopsAt x.reason.code x.pos ∧ x.reason ≠ .headerByte := by
  obtain ⟨-, ⟨rfl, -⟩ | ⟨hpos, -, hreason, -⟩⟩ := demod_error h
  · exact ⟨.inr (.inr (.inl ⟨rfl, rfl⟩)), by decide⟩
  · rw [hreason]
    exact stopsAt_phaseReason hpos

theorem stopsAt_le {r : BitVec 3} {p : Nat} (h : stopsAt r p) : p ≤ 133 := by
  rcases h with ⟨-, h⟩ | ⟨-, -, h⟩ | ⟨-, h⟩ | ⟨-, -, h⟩ | ⟨-, h⟩ <;> omega

end Sys2Proof.Machine
end

