-- ==== Sys2Proof/Proofs/Receives.lean ====
section
/-! PROOFS. DEMODULATE and RECEIVE as commands (R194, R195, R232): what each verdict leaves in FRAME, FRAME_W and
RX_STATUS. -/

namespace Sys2Proof.Machine

/-- What a receive leaves, by its verdict. -/
@[simp] theorem commitReceive_ok (g : Frame) (p : Nat) (s : State) :
    commitReceive (.ok (g, p)) s = (s.setFrame g).setStatus (statusWord true .none p) := rfl

@[simp] theorem commitReceive_error (x : RxFailure) (s : State) :
    commitReceive (.error x) s = s.setStatus (statusWord false x.reason x.pos) := rfl

theorem exec_demodulate {e : Items} {s : State} {r : Except RxFailure (Frame × Nat)} (h : demod s.win e = r) :
    exec (.demodulate e) s = .next ((commitReceive r s).answer (.demodulated r)) := by
  subst h; rfl

theorem exec_receive {e : Items} {s : State} {r : Except RxFailure (Frame × Nat)} (h : receiveCheck s.win e = r) :
    exec (.receive e) s = .next ((commitReceive r s).answer (.received (receivedFrame r))) := by
  subst h; rfl

/-! ## RECEIVE's verdict -/

theorem receiveCheck_of_header {w : Window} {e : Items} {g : Frame} {p : Nat} (h : demod w e = .ok (g, p))
    (h0 : g.b0 = headerByte) : receiveCheck w e = .ok (g, p) := by
  simp only [receiveCheck, h, h0, if_true]

theorem receiveCheck_of_wrong_header {w : Window} {e : Items} {g : Frame} {p : Nat} (h : demod w e = .ok (g, p))
    (h0 : g.b0 ≠ headerByte) : receiveCheck w e = .error ⟨.headerByte, p⟩ := by
  simp only [receiveCheck, h, h0, if_false]

theorem receiveCheck_of_error {w : Window} {e : Items} {x : RxFailure} (h : demod w e = .error x) :
    receiveCheck w e = .error x := by
  simp only [receiveCheck, h]

/-- A verdict R231 has a row for: a success at 133, or a failure of its table. -/
def legalVerdict (r : Except RxFailure (Frame × Nat)) : Prop :=
  (∃ g, r = .ok (g, 133)) ∨ (∃ x, r = .error x ∧ stopsAt x.reason.code x.pos)

theorem demod_legal (w : Window) (e : Items) : legalVerdict (demod w e) := by
  cases hd : demod w e with
  | error x => exact .inr ⟨x, rfl, (demod_stopsAt hd).1⟩
  | ok r =>
    obtain ⟨g, p⟩ := r
    obtain ⟨-, -, -, rfl⟩ := demod_ok hd
    exact .inl ⟨g, rfl⟩

theorem receiveCheck_legal (w : Window) (e : Items) : legalVerdict (receiveCheck w e) := by
  rcases demod_legal w e with ⟨g, hd⟩ | ⟨x, hd, hx⟩
  · by_cases h0 : g.b0 = headerByte
    · exact .inl ⟨g, receiveCheck_of_header hd h0⟩
    · exact .inr ⟨_, receiveCheck_of_wrong_header hd h0, .inr (.inr (.inr (.inr ⟨rfl, rfl⟩)))⟩
  · exact .inr ⟨x, receiveCheck_of_error hd, hx⟩

/-! ## The obligations -/

theorem statusPos_failure {r : Reason} {p : Nat} (h : stopsAt r.code p) :
    (statusPos (statusWord false r p)).toNat = p := by
  have := stopsAt_le h
  exact statusPos_word _ _ (by omega)

/-- Settles O43: the two verdicts of `demod`, each with what `commitReceive` writes for it. -/
theorem demodulateWritesFrameOnSuccessOnly : Obligations.DemodulateWritesFrameOnSuccessOnly := by
  intro e s
  cases hd : demod s.win e with
  | ok r =>
    obtain ⟨g, p⟩ := r
    obtain ⟨-, -, -, rfl⟩ := demod_ok hd
    refine ⟨_, exec_demodulate hd, rfl, rfl, rfl, statusReserved_word _ _ _, ?_, nofun⟩
    rintro _ _ ⟨⟩
    exact ⟨rfl, rfl, rfl, statusOk_word _ _ _, statusReason_word _ _ _, statusPos_word _ _ (by omega)⟩
  | error x =>
    obtain ⟨hstop, hreason⟩ := demod_stopsAt hd
    refine ⟨_, exec_demodulate hd, rfl, rfl, rfl, statusReserved_word _ _ _, nofun, ?_⟩
    rintro _ ⟨⟩
    exact ⟨rfl, rfl, statusOk_word _ _ _, statusReason_word _ _ _, statusPos_failure hstop, hstop, hreason⟩

/-- Settles O44: the three verdicts of `receiveCheck`; a success has the header byte and, as `demod` accepted it, a right
checksum, so it is valid. -/
theorem receiveAlsoTestsTheHeaderByte : Obligations.ReceiveAlsoTestsTheHeaderByte := by
  intro e s
  cases hd : demod s.win e with
  | ok r =>
    obtain ⟨g, p⟩ := r
    obtain ⟨-, hright, hg, rfl⟩ := demod_ok hd
    by_cases h0 : g.b0 = headerByte
    · have hvalid : frameValid g = true := (frameValid_iff g).2 ⟨h0, by rw [hg]; exact hright⟩
      refine ⟨_, exec_receive (receiveCheck_of_header hd h0), rfl, rfl, statusReserved_word _ _ _, ?_, ?_,
        nofun⟩
      · rintro _ _ ⟨⟩ -
        exact ⟨rfl, rfl, rfl, statusOk_word _ _ _, statusReason_word _ _ _, statusPos_word _ _ (by omega), _, rfl,
          congrArg Result.bit hvalid⟩
      · rintro _ _ ⟨⟩ hne
        exact absurd h0 hne
    · refine ⟨_, exec_receive (receiveCheck_of_wrong_header hd h0), rfl, rfl, statusReserved_word _ _ _, ?_, ?_,
        nofun⟩
      · rintro _ _ ⟨⟩ heq
        exact absurd heq h0
      · rintro _ _ ⟨⟩ -
        exact ⟨rfl, rfl, rfl, statusOk_word _ _ _, statusReason_word _ _ _, statusPos_word (p := 133) _ _ (by omega)⟩
  | error x =>
    have hstop := (demod_stopsAt hd).1
    refine ⟨_, exec_receive (receiveCheck_of_error hd), rfl, rfl, statusReserved_word _ _ _, nofun,
      nofun, ?_⟩
    rintro _ ⟨⟩
    exact ⟨rfl, rfl, rfl, statusOk_word _ _ _, statusReason_word _ _ _, statusPos_failure hstop⟩

/-- Settles O45: OK is 1 on a success, which is a sound capture, and 0 on a failure, which has a first failing check. -/
theorem demodulateAcceptsExactlyTheSoundCaptures : Obligations.DemodulateAcceptsExactlyTheSoundCaptures := by
  intro e s
  rcases demod_outcome s.win e with ⟨hok, hright, hd⟩ | ⟨x, hd, hx⟩
  · have hlast := (itemOk_tail s.win e).2.2.1 (hok 132 (by omega))
    refine ⟨_, exec_demodulate hd, ⟨fun _ => ⟨lt_of_itemMatches hlast, hok, hright⟩, fun _ => statusOk_word _ _ _⟩,
      fun _ => ⟨rfl, rfl⟩⟩
  · have hnot : statusOk (statusWord false x.reason x.pos) ≠ true := by rw [statusOk_word]; decide
    refine ⟨_, exec_demodulate hd, ⟨fun h => absurd h hnot, ?_⟩, fun h => absurd h hnot⟩
    rintro ⟨-, hok, hright⟩
    exact absurd hx (not_firstFailure hok hright)

end Sys2Proof.Machine
end

