-- ==== Sys2Proof/Proofs/LineRoundTrip.lean ====
section
/-! PROOFS. Captures of a frame (R197): whole, cut short, and with the window's constraints W1 and W2 (R190); the round
trip over the line (R144). -/

namespace Sys2Proof.Machine

/-! ## Matches and the window -/

theorem itemMatches_of_getElem? {w : Window} {e : Items} {k : Nat} {it : Item} (h : e[k]? = some it) (kd : Kind)
    (n : Nominal) : itemMatches w e k kd n = (decide (it.kind = kd) && inBounds (w.bounds n) it.dur) := by
  rw [itemMatches, h]

/-- Under W1 an item sent matches the symbol it was sent for. -/
theorem itemMatches_emit {w : Window} (h1 : windowW1 w) {e : Items} {k : Nat} {y : LineSymbol}
    (h : e[k]? = some (emit y)) : itemMatches w e k y.1 y.2 = true := by
  obtain ⟨hlo, hhi⟩ := h1 y.2
  rw [itemMatches_of_getElem? h, inBounds]
  simp only [emit, hlo, hhi, decide_true, Bool.and_self]

/-- Under W2 a space in the zero-window is not in the one-window. -/
theorem not_one_of_zero {w : Window} (h2 : windowW2 w) {e : Items} {k : Nat}
    (h : itemMatches w e k .space .short = true) : itemMatches w e k .space .one = false := by
  cases he : e[k]? with
  | none => rw [itemMatches, he]
  | some it =>
    rw [itemMatches_of_getElem? he, inBounds] at h ⊢
    simp only [Bool.and_eq_true, decide_eq_true_eq] at h
    obtain ⟨-, -, hhi⟩ := h
    have hlt : ¬ (w.bounds .one).lo ≤ it.dur := Nat.not_le.2 (Nat.lt_of_le_of_lt hhi h2)
    simp only [hlt, decide_false, Bool.false_and, Bool.and_false]

/-! ## Captures of a frame -/

/-- What MODULATE sends, with anything after it, is a capture of the frame (R197). -/
theorem captures_modulateFrame {w : Window} (h1 : windowW1 w) (f : Frame) (more : Items) :
    captures w f (modulateFrame f ++ more) := by
  intro k y hy
  have hk : k < (modulateFrame f).length := by
    rw [modulateFrame_length, ← lineSymbols_length f]
    exact (List.getElem?_eq_some_iff.1 hy).1
  exact itemMatches_emit h1 (by rw [List.getElem?_append_left hk, modulateFrame_getElem?, hy, Option.map_some])

/-- Every item of a capture passes its check, whatever the window. -/
theorem itemOk_of_captures {w : Window} {f : Frame} {e : Items} (h : captures w f e) : ∀ k < 133, itemOk w e k := by
  obtain ⟨hmark, hspace⟩ := lineSymbols_header f
  obtain ⟨hfooter, hgap, hclose⟩ := lineSymbols_footer f
  have hdata : ∀ n < 64, itemOk w e (2 + 2 * n) ∧ itemOk w e (2 + 2 * n + 1) := fun n hn => by
    obtain ⟨hm, hs⟩ := lineSymbols_data f hn
    refine ⟨(itemOk_mark w e hn).2 (h _ _ hm), (itemOk_space w e hn).2 ?_⟩
    have := h _ _ hs
    rw [show 2 + 2 * n + 1 = 3 + 2 * n by omega]
    cases hbit : f.dataBit n with
    | true => rw [hbit] at this; exact .inl this
    | false => rw [hbit] at this; exact .inr this
  have hbefore : ∀ k < 130, itemOk w e k := items_before (m := 64) (h _ _ hmark) (h _ _ hspace) hdata
  obtain ⟨iff130, iff131, iff132⟩ := itemOk_tail w e
  exact itemsOk_succ (itemsOk_succ (itemsOk_succ hbefore (iff130.2 (h _ _ hfooter))) (iff131.2 (h _ _ hgap)))
    (iff132.2 (h _ _ hclose))

/-- Data bit `n` of the frame a capture spells. -/
theorem dataBit_spelledFrame (w : Window) (e : Items) {n : Nat} (hn : n < 64) :
    (spelledFrame w e).dataBit n = itemMatches w e (3 + 2 * n) .space .one := by
  rw [spelledFrame, Frame.dataBit_ofBits _ hn, List.getD_eq_getElem?_getD, List.getElem?_map, List.getElem?_range hn]
  rfl

/-- Under W2 a capture of a frame spells that frame. -/
theorem spelledFrame_of_captures {w : Window} (h2 : windowW2 w) {f : Frame} {e : Items} (h : captures w f e) :
    spelledFrame w e = f := by
  refine Frame.ext_dataBits fun n hn => ?_
  have hs := h _ _ (lineSymbols_data f hn).2
  rw [dataBit_spelledFrame w e hn]
  cases hbit : f.dataBit n with
  | true => rw [hbit] at hs; exact hs
  | false => rw [hbit] at hs; exact not_one_of_zero h2 hs

theorem spellsRight_of_captures {w : Window} (h2 : windowW2 w) {f : Frame} {e : Items} (h : captures w f e) :
    spellsRight w e ↔ hi f.b7 = cs f := by
  rw [spellsRight, spelledFrame_of_captures h2 h]

theorem demod_of_captures {w : Window} (h2 : windowW2 w) {f : Frame} {e : Items} (h : captures w f e)
    (hc : hi f.b7 = cs f) : demod w e = .ok (f, 133) := by
  rw [demod_of_sound (itemOk_of_captures h) ((spellsRight_of_captures h2 h).2 hc), spelledFrame_of_captures h2 h]

theorem demod_of_captures_wrong_sum {w : Window} (h2 : windowW2 w) {f : Frame} {e : Items} (h : captures w f e)
    (hc : hi f.b7 ≠ cs f) : demod w e = .error ⟨.checksum, 130⟩ :=
  demod_of_wrong_sum (itemOk_of_captures h) fun hr => hc ((spellsRight_of_captures h2 h).1 hr)

/-- Settles O47: a capture passes every check and spells its frame, so only the frame's own checksum decides. -/
theorem lineRoundTripForEveryCapture : Obligations.LineRoundTripForEveryCapture := by
  refine ⟨fun w f more h1 => captures_modulateFrame h1 f more, fun f e s _ h2 h => ?_⟩
  by_cases hc : hi f.b7 = cs f
  · exact ⟨_, exec_demodulate (demod_of_captures h2 h hc), fun _ => ⟨rfl, rfl, rfl⟩, fun hn => absurd hc hn⟩
  · exact ⟨_, exec_demodulate (demod_of_captures_wrong_sum h2 h hc), fun hr => absurd hr hc, fun _ => ⟨rfl, rfl, rfl⟩⟩

/-! ## Captures cut short -/

/-- Cutting a capture short changes no check before the cut. -/
theorem itemOk_take {w : Window} {e : Items} {k m : Nat} (h : k < m) : itemOk w (e.take m) k ↔ itemOk w e k := by
  unfold itemOk
  split <;> simp only [itemMatches_take h]

theorem phaseAt_ne_done {k : Nat} (hk : k < 133) : phaseAt k ≠ .done := by
  unfold phaseAt
  split_ifs
  · nofun
  · nofun
  · nofun
  · nofun
  · nofun
  · omega

/-- An item that passes is inside the capture. -/
theorem lt_of_itemOk {w : Window} {e : Items} {k : Nat} (hk : k < 133) (h : itemOk w e k) : k < e.length := by
  unfold itemOk at h
  split at h
  · exact lt_of_itemMatches h
  · exact lt_of_itemMatches h
  · exact h.elim lt_of_itemMatches lt_of_itemMatches
  · exact lt_of_itemMatches h
  · exact lt_of_itemMatches h
  · exact absurd ‹_› (phaseAt_ne_done hk)

/-- The data spaces stand before item 130. -/
theorem spelledFrame_take {w : Window} {e : Items} {m : Nat} (h : 130 ≤ m) :
    spelledFrame w (e.take m) = spelledFrame w e := by
  refine Frame.ext_dataBits fun n hn => ?_
  rw [dataBit_spelledFrame _ _ hn, dataBit_spelledFrame _ _ hn, itemMatches_take (by omega)]

/-- A cut capture fails at the cut, unless the checksum, judged before item 130, fails first. -/
theorem demod_take {w : Window} {e : Items} {m : Nat} (hok : ∀ k < 133, itemOk w e k) (hm : m < 133) :
    (demod w (e.take m) = .error ⟨phaseReason (phaseAt m), m⟩ ∧ (130 ≤ m → spellsRight w e)) ∨
    (demod w (e.take m) = .error ⟨.checksum, 130⟩ ∧ 130 ≤ m ∧ ¬ spellsRight w e) := by
  have hcut : ¬ itemOk w (e.take m) m := fun h => Nat.not_lt.2 (List.length_take_le m e) (lt_of_itemOk hm h)
  have hbefore : ∀ k < m, itemOk w (e.take m) k := fun k hk => (itemOk_take hk).2 (hok k (by omega))
  have hspell : 130 ≤ m → (spellsRight w (e.take m) ↔ spellsRight w e) := fun h => by
    rw [spellsRight, spelledFrame_take h, spellsRight]
  rcases demod_outcome w (e.take m) with ⟨hall, -⟩ | ⟨⟨r, p⟩, hd, hfirst, ⟨hx, hwrong⟩ | ⟨hp, hbad, hr, hsum⟩⟩
  · exact absurd (hall m hm) hcut
  · cases hx
    have h130 : 130 ≤ m := by
      by_contra hlt
      exact hcut (hfirst m (show m < 130 by omega))
    exact .inr ⟨hd, h130, fun h => hwrong ((hspell h130).2 h)⟩
  · obtain rfl : p = m := by
      rcases Nat.lt_trichotomy p m with h | h | h
      · exact absurd (hbefore p h) hbad
      · exact h
      · exact absurd (hfirst m h) hcut
    exact .inl ⟨by rw [hd, show r = _ from hr], fun h => (hspell h).1 (hsum h)⟩

/-- Settles O48: `demod_take`, with the checksum the capture spells that of its frame. -/
theorem aCaptureCutShortFailsWhereItEnds : Obligations.ACaptureCutShortFailsWhereItEnds := by
  intro f e m s h2 h hm
  have hright := spellsRight_of_captures h2 h
  rcases demod_take (itemOk_of_captures h) hm with ⟨hd, hsum⟩ | ⟨hd, h130, hwrong⟩
  · refine ⟨_, exec_demodulate hd, rfl, rfl, fun _ => rfl, fun h130 _ => ?_, fun h130 hc => ?_⟩
    · rw [phaseReason_tail h130 hm]; rfl
    · exact absurd (hright.1 (hsum h130)) hc
  · exact ⟨_, exec_demodulate hd, rfl, rfl, fun h => by omega, fun _ hc => absurd (hright.2 hc) hwrong, fun _ _ => rfl⟩

/-! ## The logical state over the line -/

/-- Settles O40: what MODULATE sends is a capture of ENCODE's frame, whose checksum and header are right, so RECEIVE
writes that frame, and DECODE reports what it was built from. -/
theorem logicalStateSurvivesTheLine : Obligations.LogicalStateSurvivesTheLine := by
  intro ls s hls h1 h2
  have hcap : captures s.win (encodeFrame ls) (modulateFrame (encodeFrame ls)) := by
    simpa using captures_modulateFrame h1 (encodeFrame ls) []
  have hreceive := receiveCheck_of_header (demod_of_captures h2 hcap (hi_encodeFrame_b7 ls)) (encodeFrame_b0 ls)
  have hpos : statusPos (statusWord true .none 133) = 133 := BitVec.eq_of_toNat_eq (statusPos_word _ _ (by omega))
  exact ⟨_, _, _, _, modulateFrame (encodeFrame ls), _, rfl, rfl, rfl, exec_receive hreceive, rfl, rfl,
    statusOk_word _ _ _, statusReason_word _ _ _, hpos, rfl, rfl, reports_decodeFrame_encodeFrame hls⟩

/-! ## Without W2 -/

/-- The window that takes every duration for every nominal up to 100 ms: it meets W1 and not W2. -/
def windowWide : Window :=
  ⟨⟨0, 100000⟩, ⟨0, 100000⟩, ⟨0, 100000⟩, ⟨0, 100000⟩, ⟨0, 100000⟩⟩

theorem windowWide_W1 : windowW1 windowWide := by
  intro n
  cases n <;> decide

/-- Under it every data space sent is taken for a one. -/
theorem spelledFrame_windowWide (f : Frame) :
    spelledFrame windowWide (modulateFrame f) = ⟨0xFF, 0xFF, 0xFF, 0xFF, 0xFF, 0xFF, 0xFF, 0xFF⟩ := by
  refine Frame.ext_dataBits fun n hn => ?_
  have hitem : (modulateFrame f)[3 + 2 * n]? = some (emit (.space, if f.dataBit n then .one else .short)) := by
    rw [modulateFrame_getElem?, (lineSymbols_data f hn).2, Option.map_some]
  rw [dataBit_spelledFrame _ _ hn, itemMatches_of_getElem? hitem]
  have hones : Frame.dataBit ⟨0xFF, 0xFF, 0xFF, 0xFF, 0xFF, 0xFF, 0xFF, 0xFF⟩ n = true := by
    interval_cases n <;> rfl
  rw [hones]
  cases f.dataBit n <;> rfl

/-- The frame of ones has checksum 1 and checksum nibble 15, so nothing sent under that window is received. -/
theorem demod_windowWide (f : Frame) : demod windowWide (modulateFrame f) = .error ⟨.checksum, 130⟩ := by
  have hcap : captures windowWide f (modulateFrame f) := by simpa using captures_modulateFrame windowWide_W1 f []
  refine demod_of_wrong_sum (itemOk_of_captures hcap) ?_
  rw [spellsRight, spelledFrame_windowWide]
  decide

/-- Settles O49: the reset state under `windowWide`, with the logical state COOL, AUTO, 24 degrees, all else 0. -/
theorem theRoundTripNeedsMoreThanW1 : Obligations.TheRoundTripNeedsMoreThanW1 := by
  refine ⟨{ State.reset with win := windowWide }, _, _, _,
    ⟨0x02, 0x01, 24, 0, 0, 0, false, false, 0, false, false, false, false, false⟩, _, windowWide_W1, ?_, rfl, rfl, rfl,
    exec_receive (receiveCheck_of_error (demod_windowWide _)), statusOk_word _ _ _⟩
  simp only [logicalValid]
  decide

/-! ## The default window -/

/-- Settles O51: both sides of W2 are linear in the percentage, and the window at 25 is a table of numbers. -/
theorem toleranceWindowsMeetTheConstraints : Obligations.ToleranceWindowsMeetTheConstraints := by
  refine ⟨fun tol => ?_, by decide, fun n => ?_, by unfold windowW2; decide, by unfold windowW3; decide⟩
  · simp only [windowW2, windowOfTolerance, toleranceBounds, micros]
    omega
  · cases n <;> decide

end Sys2Proof.Machine
end

