-- ==== Sys2Proof/Proofs/MachineRules.lean ====
section
/-! PROOFS. The rules of the whole machine: reset, the step and its queue (R69, R260), the invariant of RX_STATUS (R231),
what writes it and FRAME_W (R31, R35), the fault of R234 along a run, and what nothing depends on (R41). -/

namespace Sys2Proof.Machine

/-! ## What every command keeps -/

theorem exec_keeps_queue {i : Instr} {s t : State} (h : exec i s = .next t) : t.win = s.win ∧ t.pending = s.pending := by
  rcases exec_next h with ⟨r, rfl⟩ | ⟨f, rfl⟩ | ⟨-, f, rfl⟩ | ⟨e, -, rfl⟩ | ⟨e, -, rfl⟩
  · exact ⟨rfl, rfl⟩
  · exact ⟨rfl, rfl⟩
  · exact ⟨rfl, rfl⟩
  · exact ⟨commitReceive_win _ s, commitReceive_pending _ s⟩
  · exact ⟨commitReceive_win _ s, commitReceive_pending _ s⟩

theorem guardedExec_of_safe {i : Instr} {s : State} (h : safeToIssue i s) : guardedExec i s = exec i s := by
  refine guardedExec_of_not (Bool.eq_false_iff.2 fun hu => ?_)
  obtain ⟨hn, hW⟩ := (frameUnwritten_iff i s).1 hu
  rw [h hn] at hW
  cases hW

/-- Settles O55: `exec_completes`, and the guard passes a command that is safe to issue. -/
theorem everyCommandCompletesInEveryState : Obligations.EveryCommandCompletesInEveryState := by
  have completes : ∀ (i : Instr) (s : State), ∃ t, exec i s = .next t ∧ t.win = s.win ∧ t.pending = s.pending :=
    fun i s => by
      obtain ⟨t, ht⟩ := exec_completes i s
      exact ⟨t, ht, exec_keeps_queue ht⟩
  refine ⟨completes, fun i s h => ?_⟩
  rw [guardedExec_of_safe h]
  exact completes i s

/-! ## Reset and the step -/

/-- Settles O1: each field of the reset state, and of its status word. -/
theorem resetHoldsNoFrameAndZeroStatus : Obligations.ResetHoldsNoFrameAndZeroStatus :=
  ⟨rfl, rfl, rfl, rfl, rfl, rfl⟩

theorem step_reset {s : State} {rest : List Input} (hp : s.pending = .reset :: rest) :
    step s = .next (s.setPending rest).applyReset := by
  rw [step, takeNext, hp]; rfl

theorem step_idle {s : State} (hp : s.pending = []) : step s = .next s := by
  rw [step, takeNext, hp]

theorem step_refused {s : State} {c : RawCommand} {rest : List Input} {why : DecodeError}
    (hp : s.pending = .command c :: rest) (hd : decode c = .error why) : step s = .refused (.illegalCommand why) := by
  simp only [step, takeNext, hp, takeInput, runCommand, hd]

/-- Settles O2: the step is `applyReset`, field by field. -/
theorem resetInputClearsStateAndKeepsWindow : Obligations.ResetInputClearsStateAndKeepsWindow :=
  fun _ _ hp => ⟨_, step_reset hp, rfl, rfl, rfl, rfl, rfl⟩

/-- Settles O3: the three cases of the queue; the guard passes a command that is safe to issue. -/
theorem stepRunsTheDecodedCommand : Obligations.StepRunsTheDecodedCommand := by
  refine ⟨fun s c rest i hp hd => ⟨step_command hp hd, fun hsafe => ?_⟩, fun s c rest why hp hd => step_refused hp hd,
    fun s hp => step_idle hp⟩
  rw [step_command hp hd]
  exact guardedExec_of_safe (s := s.setPending rest) hsafe

/-- Settles O4: each way a step completes leaves the tail of the queue. -/
theorem stepTakesTheOldestInput : Obligations.StepTakesTheOldestInput := by
  intro s t h
  rcases step_next h with ⟨hp, rfl⟩ | ⟨rest, hp, rfl⟩ | ⟨c, rest, i, hp, -, -, hx⟩
  · rw [hp]; rfl
  · rw [hp]; rfl
  · rw [hp, (exec_keeps_queue hx).2]; rfl

/-- Settles O59: a reset keeps the window, and so does every command. -/
theorem noStepChangesTheWindow : Obligations.NoStepChangesTheWindow := by
  intro s t h
  rcases step_next h with ⟨-, rfl⟩ | ⟨rest, -, rfl⟩ | ⟨c, rest, i, -, -, -, hx⟩
  · rfl
  · rfl
  · exact (exec_keeps_queue hx).1

/-! ## The invariant of RX_STATUS -/

/-- The status word of a legal verdict is legal (R231). -/
theorem statusLegal_success : statusLegal (statusWord true .none 133) :=
  ⟨statusReserved_word _ _ _, .inr (.inl ⟨statusOk_word _ _ _, statusReason_word _ _ _, statusPos_word _ _ (by omega)⟩)⟩

theorem statusLegal_failure {r : Reason} {p : Nat} (h : stopsAt r.code p) : statusLegal (statusWord false r p) := by
  refine ⟨statusReserved_word _ _ _, .inr (.inr ⟨statusOk_word _ _ _, ?_⟩)⟩
  rw [statusReason_word, statusPos_failure h]
  exact h

theorem stateInv_commitReceive {r : Except RxFailure (Frame × Nat)} (hr : legalVerdict r) (s : State) :
    StateInv (commitReceive r s) := by
  rcases hr with ⟨g, rfl⟩ | ⟨x, rfl, hx⟩
  · exact ⟨statusLegal_success, fun _ => rfl⟩
  · refine ⟨statusLegal_failure hx, fun hok => ?_⟩
    rw [commitReceive_error, State.setStatus_rxStatus, statusOk_word] at hok
    cases hok

theorem exec_keeps_stateInv {i : Instr} {s t : State} (hs : StateInv s) (h : exec i s = .next t) : StateInv t := by
  rcases exec_next h with ⟨r, rfl⟩ | ⟨f, rfl⟩ | ⟨-, f, rfl⟩ | ⟨e, -, rfl⟩ | ⟨e, -, rfl⟩
  · exact hs
  · exact hs
  · exact ⟨hs.1, fun _ => rfl⟩
  · exact stateInv_commitReceive (demod_legal s.win e) s
  · exact stateInv_commitReceive (receiveCheck_legal s.win e) s

/-- A state that has received nothing since reset, whatever waits and whatever the window. -/
theorem stateInv_of_status_zero {s : State} (h : s.rxStatus = 0) : StateInv s := by
  refine ⟨⟨?_, .inl h⟩, fun hok => ?_⟩
  · rw [h]; rfl
  · rw [h] at hok; cases hok

/-- Settles O52: an idle step changes nothing, a reset gives RX_STATUS 0, and commands keep the invariant. -/
theorem everyStepKeepsTheInvariant : Obligations.EveryStepKeepsTheInvariant := by
  intro s t hs h
  rcases step_next h with ⟨-, rfl⟩ | ⟨rest, -, rfl⟩ | ⟨c, rest, i, -, -, -, hx⟩
  · exact hs
  · exact stateInv_of_status_zero rfl
  · exact exec_keeps_stateInv (s := s.setPending rest) hs hx

/-- Settles O53: RX_STATUS is 0, the first of the legal words. -/
theorem theInvariantHoldsAtReset : Obligations.TheInvariantHoldsAtReset :=
  stateInv_of_status_zero rfl

/-- Settles O50: the fields of `statusRead`, which is the register itself where its reserved bits are 0. -/
theorem statusReadAnswersTheStatusFields : Obligations.StatusReadAnswersTheStatusFields := by
  intro s
  refine ⟨_, statusRead s.rxStatus, rfl, rfl, sameButResult_answer s _, statusOk_pack _ _ _, statusReason_pack _ _ _,
    statusReserved_pack _ _ _, statusPos_pack _ _ _, ?_⟩
  rintro ⟨⟨hreserved, -⟩, -⟩
  exact statusRead_of_reserved hreserved

/-! ## What writes RX_STATUS and FRAME_W -/

/-- Settles O54: of the five ways a command completes, the three that are no receive keep RX_STATUS. -/
theorem onlyReceivesWriteTheStatus : Obligations.OnlyReceivesWriteTheStatus := by
  intro i s t h hne
  rcases exec_next h with ⟨r, rfl⟩ | ⟨f, rfl⟩ | ⟨-, f, rfl⟩ | ⟨e, he, -⟩ | ⟨e, he, -⟩
  · exact absurd rfl hne
  · exact absurd rfl hne
  · exact absurd rfl hne
  · exact .inl ⟨e, he⟩
  · exact .inr ⟨e, he⟩

/-- A receive that sets FRAME_W ended OK. -/
theorem statusOk_of_commitReceive_sets {r : Except RxFailure (Frame × Nat)} {s : State} (hW : s.frameW = false)
    (hW' : (commitReceive r s).frameW = true) : statusOk (commitReceive r s).rxStatus = true := by
  cases r with
  | ok r =>
    rw [commitReceive_ok, State.setStatus_rxStatus]
    exact statusOk_word _ _ _
  | error x =>
    rw [commitReceive_error, State.setStatus_frameW, hW] at hW'
    cases hW'

theorem commitReceive_keeps_written {r : Except RxFailure (Frame × Nat)} {s : State} (hW : s.frameW = true) :
    (commitReceive r s).frameW = true := by
  cases r with
  | ok r => rfl
  | error x => exact hW

theorem exec_keeps_written {i : Instr} {s t : State} (h : exec i s = .next t) (hW : s.frameW = true) :
    t.frameW = true := by
  rcases exec_next h with ⟨r, rfl⟩ | ⟨f, rfl⟩ | ⟨-, f, rfl⟩ | ⟨e, -, rfl⟩ | ⟨e, -, rfl⟩
  · exact hW
  · exact hW
  · rfl
  · exact commitReceive_keeps_written hW
  · exact commitReceive_keeps_written hW

/-- The commands R234 names: those that need no written frame. -/
theorem needsFrame_eq_false_iff (i : Instr) :
    needsFrame i = false ↔
      i = .frameInit ∨ (∃ b0 b1 b2 b3 b4 b5 b6 b7, i = .frameLoad b0 b1 b2 b3 b4 b5 b6 b7) ∨ (∃ ls, i = .encode ls) ∨
      (∃ e, i = .demodulate e) ∨ (∃ e, i = .receive e) ∨ i = .statusRead := by
  constructor
  · intro h
    cases i
    case frameInit => exact .inl rfl
    case frameLoad => exact .inr (.inl ⟨_, _, _, _, _, _, _, _, rfl⟩)
    case encode ls => exact .inr (.inr (.inl ⟨ls, rfl⟩))
    case demodulate e => exact .inr (.inr (.inr (.inl ⟨e, rfl⟩)))
    case receive e => exact .inr (.inr (.inr (.inr (.inl ⟨e, rfl⟩))))
    case statusRead => exact .inr (.inr (.inr (.inr (.inr rfl))))
    all_goals cases h
  · rintro (rfl | ⟨_, _, _, _, _, _, _, _, rfl⟩ | ⟨_, rfl⟩ | ⟨_, rfl⟩ | ⟨_, rfl⟩ | rfl) <;> rfl

/-- A command that needs a written frame keeps FRAME_W. -/
theorem exec_keeps_frameW {i : Instr} {s t : State} (hn : needsFrame i = true) (h : exec i s = .next t) :
    t.frameW = s.frameW := by
  rcases exec_next h with ⟨r, rfl⟩ | ⟨f, rfl⟩ | ⟨hn', -⟩ | ⟨e, rfl, -⟩ | ⟨e, rfl, -⟩
  · rfl
  · rfl
  · rw [hn] at hn'; cases hn'
  · cases hn
  · cases hn

/-- Settles O57: a command that sets FRAME_W needs no written frame, so it is one of R234's six, STATUS_READ aside; and
commands keep FRAME_W once set, so a step that clears it took a reset. -/
theorem frameWrittenIsClearedByResetOnly : Obligations.FrameWrittenIsClearedByResetOnly := by
  refine ⟨fun i s t h hW hW' => ?sets, fun s t h hW hW' => ?clears⟩
  case sets =>
    have hn : needsFrame i = false := by
      by_contra hn
      rw [exec_keeps_frameW (by simpa using hn) h, hW] at hW'
      cases hW'
    rcases (needsFrame_eq_false_iff i).1 hn with hi | hi | hi | ⟨e, rfl⟩ | ⟨e, rfl⟩ | rfl
    · exact .inl hi
    · exact .inr (.inl hi)
    · exact .inr (.inr (.inl hi))
    · cases h
      exact .inr (.inr (.inr ⟨⟨e, .inl rfl⟩, statusOk_of_commitReceive_sets hW hW'⟩))
    · cases h
      exact .inr (.inr (.inr ⟨⟨e, .inr rfl⟩, statusOk_of_commitReceive_sets hW hW'⟩))
    · cases h
      exact absurd (hW.symm.trans hW') Bool.false_ne_true
  case clears =>
    rcases step_next h with ⟨-, rfl⟩ | ⟨rest, hp, -⟩ | ⟨c, rest, i, -, -, -, hx⟩
    · exact absurd (hW'.symm.trans hW) Bool.false_ne_true
    · rw [hp]; rfl
    · exact absurd (hW'.symm.trans (exec_keeps_written hx hW)) Bool.false_ne_true

/-! ## The fault of R234 -/

theorem guardedExec_fault_iff (i : Instr) (s : State) :
    guardedExec i s = .fault .frameUnwritten ↔ needsFrame i = true ∧ s.frameW = false := by
  rw [← frameUnwritten_iff]
  refine ⟨fun h => ?_, guardedExec_of_unwritten⟩
  by_contra hu
  obtain ⟨t, ht⟩ := exec_completes i s
  rw [guardedExec_of_not (by simpa using hu), ht] at h
  cases h

theorem unwrittenAhead_iff (s : State) :
    unwrittenAhead s = true ↔ s.frameW = false ∧
      ∃ c rest i, s.pending = .command c :: rest ∧ decode c = .ok i ∧ needsFrame i = true := by
  constructor
  · intro h
    unfold unwrittenAhead at h
    split at h
    · rename_i c rest hp
      split at h
      · rename_i i hd
        obtain ⟨hn, hW⟩ := (frameUnwritten_iff i s).1 h
        exact ⟨hW, c, rest, i, hp, hd, hn⟩
      · cases h
    · cases h
  · rintro ⟨hW, c, rest, i, hp, hd, hn⟩
    simp only [unwrittenAhead, hp, hd]
    exact (frameUnwritten_iff i s).2 ⟨hn, hW⟩

theorem step_fault_iff (s : State) (f : Fault) :
    step s = .fault f ↔ f = .frameUnwritten ∧ s.frameW = false ∧
      ∃ c rest i, s.pending = .command c :: rest ∧ decode c = .ok i ∧ needsFrame i = true := by
  constructor
  · intro h
    obtain ⟨hf, hu⟩ := step_fault h
    exact ⟨hf, (unwrittenAhead_iff s).1 hu⟩
  · rintro ⟨rfl, hW, c, rest, i, hp, hd, hn⟩
    rw [step_command hp hd]
    exact guardedExec_faults hn hW

/-- Where a run of `n` steps stands: after `k` steps of core, all `n` of them while nothing has ended it; ended by a
fault, the step it stands at faults. -/
def runStands (s : State) (n k : Nat) : Prop :=
  Host.Core.run core k s = .next (modelRun s n).state ∧
  ((modelRun s n).ended = none → k = n) ∧ ((modelRun s n).ended ≠ none → k < n) ∧
  ∀ f, (modelRun s n).ended = some (.fault f) → step (modelRun s n).state = .fault f

theorem exists_runStands (s : State) (n : Nat) : ∃ k, runStands s n k := by
  induction n with
  | zero => exact ⟨0, rfl, fun _ => rfl, fun h => absurd rfl h, fun f h => by cases h⟩
  | succ n ih =>
    obtain ⟨k, hrun, hgoing, hended, hfault⟩ := ih
    unfold runStands
    have hadv : modelRun s (n + 1) = advanceRun (modelRun s n) := rfl
    rcases advanceRun_cases (modelRun s n) with ⟨he, h⟩ | ⟨he, t, ht, h⟩ | ⟨he, f, hf, h⟩ | ⟨he, x, hx, h⟩
    · rw [hadv, h]
      exact ⟨k, hrun, fun hn => absurd hn he, fun _ => Nat.lt_succ_of_lt (hended he), hfault⟩
    · obtain rfl := hgoing he
      rw [hadv, h]
      exact ⟨k + 1, run_snoc core hrun ht, fun _ => rfl, fun hn => absurd rfl hn, nofun⟩
    · obtain rfl := hgoing he
      rw [hadv, h]
      exact ⟨k, hrun, nofun, fun _ => Nat.lt_succ_self k, fun f' hf' => by cases hf'; exact hf⟩
    · obtain rfl := hgoing he
      rw [hadv, h]
      exact ⟨k, hrun, nofun, fun _ => Nat.lt_succ_self k, nofun⟩

/-- Settles O56: the guard, the step and the run each fault exactly there (`guardedExec_fault_iff`, `step_fault_iff`);
`runStands` is kept from step to step, and a run that has ended stays as it is. -/
theorem frameUnwrittenFaultsExactlyTheReaders : Obligations.FrameUnwrittenFaultsExactlyTheReaders := by
  refine ⟨guardedExec_fault_iff, fun _ _ => guardedExec_of_safe, step_fault_iff, fun s n => ?run, needsFrame_eq_false_iff⟩
  case run =>
    obtain ⟨k, hrun, hgoing, hended, hfault⟩ := exists_runStands s n
    have hle : k ≤ n := by
      by_cases he : (modelRun s n).ended = none
      · exact (hgoing he).le
      · exact (hended he).le
    refine ⟨k, hle, hrun, hgoing, fun f hf => ⟨hfault f hf, ?_⟩, modelRun_ended⟩
    exact run_fault core hrun (hfault f hf) (hended (by rw [hf]; exact nofun))

/-! ## No hidden state -/

theorem commitReceive_congr (r : Except RxFailure (Frame × Nat)) {s s' : State} (hf : s.frame = s'.frame)
    (hW : s.frameW = s'.frameW) :
    (commitReceive r s').frame = (commitReceive r s).frame ∧ (commitReceive r s').frameW = (commitReceive r s).frameW ∧
    (commitReceive r s').rxStatus = (commitReceive r s).rxStatus := by
  cases r with
  | ok r => exact ⟨rfl, rfl, rfl⟩
  | error x => exact ⟨hf.symm, hW.symm, rfl⟩

/-- R41: a command's effect is a function of FRAME, FRAME_W, RX_STATUS and the window. -/
theorem exec_congr {i : Instr} {s s' t : State} (hf : s.frame = s'.frame) (hW : s.frameW = s'.frameW)
    (hx : s.rxStatus = s'.rxStatus) (hw : s.win = s'.win) (h : exec i s = .next t) :
    ∃ t', exec i s' = .next t' ∧ t'.frame = t.frame ∧ t'.frameW = t.frameW ∧ t'.rxStatus = t.rxStatus ∧
      t'.result = t.result := by
  obtain ⟨f, W, x, r, p, w⟩ := s
  obtain ⟨f', W', x', r', p', w'⟩ := s'
  cases hf; cases hW; cases hx; cases hw
  cases i
  case demodulate e =>
    cases h
    obtain ⟨hframe, hframeW, hstatus⟩ := commitReceive_congr (demod w e)
      (s := ⟨f, W, x, r, p, w⟩) (s' := ⟨f, W, x, r', p', w⟩) rfl rfl
    exact ⟨_, rfl, hframe, hframeW, hstatus, rfl⟩
  case receive e =>
    cases h
    obtain ⟨hframe, hframeW, hstatus⟩ := commitReceive_congr (receiveCheck w e)
      (s := ⟨f, W, x, r, p, w⟩) (s' := ⟨f, W, x, r', p', w⟩) rfl rfl
    exact ⟨_, rfl, hframe, hframeW, hstatus, rfl⟩
  all_goals
    cases h
    exact ⟨_, rfl, rfl, rfl, rfl, rfl⟩

/-- Two states after one command that do not differ in what an unwritten FRAME holds. -/
def sameButUnwritten (t t' : State) : Prop :=
  t'.frameW = t.frameW ∧ t'.rxStatus = t.rxStatus ∧ t'.result = t.result ∧ t'.pending = t.pending ∧ t'.win = t.win ∧
  (t.frameW = true → t'.frame = t.frame)

theorem sameButUnwritten_setBytes {s : State} (f : Frame) (hW : s.frameW = false) (r : Result) :
    sameButUnwritten (s.answer r) ((s.setBytes f).answer r) :=
  ⟨rfl, rfl, rfl, rfl, rfl, fun h => absurd (hW.symm.trans h) Bool.false_ne_true⟩

theorem sameButUnwritten_commitReceive {s : State} (f : Frame) (hW : s.frameW = false)
    (r : Except RxFailure (Frame × Nat)) (a : Result) :
    sameButUnwritten ((commitReceive r s).answer a) ((commitReceive r (s.setBytes f)).answer a) := by
  cases r with
  | ok r => exact ⟨rfl, rfl, rfl, rfl, rfl, fun _ => rfl⟩
  | error x => exact sameButUnwritten_setBytes (s := s.setStatus (statusWord false x.reason x.pos)) f hW a

/-- R31: a command that needs no written frame does not depend on the bytes of an unwritten one. -/
theorem exec_setBytes {i : Instr} {s t : State} (f : Frame) (hn : needsFrame i = false) (hW : s.frameW = false)
    (h : exec i s = .next t) : ∃ t', exec i (s.setBytes f) = .next t' ∧ sameButUnwritten t t' := by
  rcases (needsFrame_eq_false_iff i).1 hn with rfl | ⟨_, _, _, _, _, _, _, _, rfl⟩ | ⟨_, rfl⟩ | ⟨e, rfl⟩ | ⟨e, rfl⟩ | rfl <;>
    cases h
  · exact ⟨_, rfl, rfl, rfl, rfl, rfl, rfl, fun _ => rfl⟩
  · exact ⟨_, rfl, rfl, rfl, rfl, rfl, rfl, fun _ => rfl⟩
  · exact ⟨_, rfl, rfl, rfl, rfl, rfl, rfl, fun _ => rfl⟩
  · exact ⟨_, rfl, sameButUnwritten_commitReceive f hW _ _⟩
  · exact ⟨_, rfl, sameButUnwritten_commitReceive f hW _ _⟩
  · exact ⟨_, rfl, sameButUnwritten_setBytes f hW _⟩

/-- Settles O60: commands by `exec_congr`; a step with FRAME_W = 0 is idle, a reset, or a command that needs no written
frame (`exec_setBytes`). -/
theorem noHiddenStateSurvivesACommand : Obligations.NoHiddenStateSurvivesACommand := by
  refine ⟨fun i s s' t => exec_congr, fun s t f hW h => ?_⟩
  rcases step_next h with ⟨hp, rfl⟩ | ⟨rest, hp, rfl⟩ | ⟨c, rest, i, hp, hd, hu, hx⟩
  · exact ⟨_, step_idle (s := t.setBytes f) hp, sameButUnwritten_setBytes f hW t.result⟩
  · exact ⟨_, step_reset (s := s.setBytes f) hp, rfl, rfl, rfl, rfl, rfl, fun _ => rfl⟩
  · have hn : needsFrame i = false := by simpa only [frameUnwritten, hW, Bool.not_false, Bool.and_true] using hu
    obtain ⟨t', ht', hsame⟩ := exec_setBytes (s := s.setPending rest) f hn hW hx
    refine ⟨t', ?_, hsame⟩
    rw [step_command (s := s.setBytes f) hp hd, guardedExec_of_safe fun h => by rw [hn] at h; cases h]
    exact ht'

end Sys2Proof.Machine
end
